-- ==== Sys2Proof/Word.lean ====
section
/-! DEFINITION. The bit-vector types of the block's ports and registers
(spec/10_state.md R10, spec/20_memory.md R25, R28, spec/30_encoding.md R41, decisions D2 and D6). -/

namespace Sys2Proof

/-- A command word: `CMD_W = 10` bits (30_encoding.md R41, 00_scope.md R7). -/
abbrev CommandWord := BitVec 10

/-- The operand of `SAMPLE` as it stands in the command word: exactly 8 bits (20_memory.md R25, D7).
Every pattern is a valid sample, so a sample outside [-128, 127] cannot be written down. -/
abbrev SampleBits := BitVec 8

/-- A byte of the output stream, "8 packed decision bits" (20_memory.md R27), and the accumulator. -/
abbrev Byte := BitVec 8

/-- The register `level`: `LEVEL_W = 8` bits, two's complement (10_state.md R10, D6). -/
abbrev Level := BitVec 8

/-- The register `response`: `RESP_W = 10` bits, unsigned (10_state.md R10, D6). -/
abbrev Response := BitVec 10

end Sys2Proof
end

