-- ==== Sys2Proof/Syntax.lean ====
section
/-! DEFINITION. The commands of the block (spec/30_encoding.md R44, one constructor per row of
spec/opcode_table.json) and the lines of the textual notation with its pseudo-commands
(30_encoding.md R50, R51). -/

namespace Sys2Proof

/-- The codec mode, the tagged variant of 00_scope.md R5; bit value 0 is `current`, 1 is `legacy`
(10_state.md R15, D3). The word restricts nothing: it only selects constants (60_exceptions.md R100). -/
inductive Mode where
  /-- `current`, the default mode (R5); encoded 0 -/
  | current
  /-- `legacy`; encoded 1 -/
  | legacy
deriving DecidableEq, Repr

/-- The four commands (30_encoding.md R44). There is no other command (42_session_buffer.md R90). -/
inductive Instr where
  /-- `NOP` (42_session_buffer.md R78) -/
  | nop
  /-- `START m` (42_session_buffer.md R79) -/
  | start (m : Mode)
  /-- `SAMPLE s`, the operand as its 8 bits (40_quantizer.md R53) -/
  | sample (s : SampleBits)
  /-- `END` (42_session_buffer.md R80); the name `end` is a word of Lean's own -/
  | endBuffer
deriving DecidableEq, Repr

/-- One line of the textual notation: the four commands (30_encoding.md R50) and the three
pseudo-commands (R51). A sample is written as a decimal integer of any size here, and
`TextLine.wellFormed` is the boundary at which one outside [-128, 127] is refused (R50, R93). -/
inductive TextLine where
  | nop
  | start (m : Mode)
  | sample (n : Int)
  | endBuffer
  /-- `BUFFER [n0, ..., n(L-1)]`: one call of the software's encode operation -/
  | buffer (samples : List Int)
  /-- `SESSION <mode>`: constructing a fresh CodecState with its mode -/
  | session (m : Mode)
  /-- `IDLE <k>`: the host pausing for `k` steps -/
  | idle (k : Nat)
deriving DecidableEq, Repr

end Sys2Proof
end

