-- ==== Sys2Proof/Config.lean ====
section
/-! DEFINITION. What an implementation of the block fixes (the parameters of spec/00_scope.md R7, with
the spec's defaults) and the model's two free values (opaque constants with no body: nothing in Lean
can say which value they are). -/

namespace Sys2Proof

/-- The parameters of 00_scope.md R7, fixed for one copy of the block (42_session_buffer.md R87). The
three width parameters are the widths of the types of Word.lean (`LEVEL_W`, `RESP_W`, `CMD_W`, log
entry 3). The types admit exactly R7's legal values. -/
structure Config where
  /-- `INIT_LEVEL`, default 0, legal -128 to 127 (D4) -/
  initLevel : Level := 0
  /-- `INIT_RESPONSE`, default 0, legal 0 to 255: eight bits (D4) -/
  initResponse : BitVec 8 := 0
  /-- `INIT_LASTBIT`, default false (D4) -/
  initLastBit : Bool := false
  /-- `REMAINDER_COMMITS`, default false (D8) -/
  remainderCommits : Bool := false
  /-- `RESET_MODE`, default `current` (D5) -/
  resetMode : Mode := .current
deriving DecidableEq, Repr

/-- FREE VALUE (93_implementation_defined.md U6, log entry 4): what `out_byte` shows in a step that
emits nothing, "any value when `out_valid = 0`" (20_memory.md R39). The argument is the draw's number. -/
opaque Config.idleOutByte : Nat → Byte

/-- FREE VALUE (log entry 5): what `level` holds when the exact new level is not in [-128, 127].
40_quantizer.md R68 proves that this never happens in a state that meets the invariants of
10_state.md R18; outside them the spec states no result. The argument is the exact integer. -/
opaque Config.levelOutOfRange : Int → Level

end Sys2Proof
end

