-- ==== Sys2Proof/Machine/State.lean ====
section
/-! DEFINITION. The state of the block: the nine registers of spec/10_state.md R10, the parameters of
spec/00_scope.md R7 (fixed for one copy of the block), and the two streams of spec/20_memory.md R23.
There is no memory, no program counter and no other register (R14, R22, R26). -/

namespace Sys2Proof.Machine

/-- A CodecState, "`level`, `response`, `lastBit`" (10_state.md R11): the working one `W` and the
checkpoint `K` (R17) are two of them. -/
structure CodecState where
  /-- the predicted signal value, 8 bits signed -/
  level : Level
  /-- the adaptive step size, 10 bits unsigned -/
  response : Response
  /-- the previous decision, the only flag of the machine (R13) -/
  lastBit : Bool
deriving DecidableEq, Repr

/-- What the host drives on the input pins at one rising edge of `clk` (20_memory.md R39). -/
structure Edge where
  /-- pin `rst`: synchronous reset, active high -/
  rst : Bool
  /-- pin `cmd_valid` -/
  cmdValid : Bool
  /-- pin `cmd`, the command word -/
  cmd : CommandWord
deriving DecidableEq, Repr

/-- The state. `mode`, `w`, `acc`, `cnt`, `k` are the nine registers, 50 bits (R10): `w` is `level`,
`response`, `lastBit` and `k` is `level_k`, `response_k`, `lastBit_k`. The other fields are the model's
own: R20 calls them parameters and observations of the step, and the step must find them somewhere. -/
structure State where
  /-- the parameters of R7; no command and no reset writes them -/
  config : Config
  /-- `MODE`, the only control register (R15) -/
  mode : Mode
  /-- `W`, the working CodecState (R11) -/
  w : CodecState
  /-- `acc`, the in-progress output byte (R16) -/
  acc : Byte
  /-- `cnt`, the samples since the last byte boundary (R14) -/
  cnt : BitVec 3
  /-- `K`, the checkpoint (R17) -/
  k : CodecState
  /-- the command stream still to come, next edge first (20_memory.md R24, R39); when it is empty the
  host sends nothing, and the block idles (60_exceptions.md R102) -/
  input : List Edge
  /-- the output byte stream since reset of the model, oldest first (R20, R27); never read by a rule -/
  output : List Byte
  /-- the optional byte of the step just performed (R28): `some b` is `out_valid = 1`, `out_byte = b` -/
  emitted : Option Byte
  /-- how many draws of the free value `Config.idleOutByte` the steps have passed (log entry 4) -/
  draws : Nat
deriving DecidableEq, Repr

/-- The faults of the block: NONE. "It has no `fault` outcome" (60_exceptions.md R91). -/
inductive Fault where
deriving DecidableEq, Repr

/-- The reasons a step has no meaning. -/
inductive Refusal where
  /-- The step was presented a reserved command word: `refuse(reserved_encoding)` (30_encoding.md R48,
  60_exceptions.md R94, D10). Raised by `step` alone. Safe: it errs toward unprovable. -/
  | reservedEncoding
  /-- An instruction that has no meaning in this model. Raised by no arm: every row of the opcode table
  has its meaning. Safe. -/
  | notModelled (mnemonic : String)
deriving DecidableEq, Repr

/-- The block right after reset (10_state.md R19, 70_reset_and_hazards.md R104), with the default
parameters of R7, before the host has sent anything and with nothing emitted. -/
def State.reset : State where
  config := {}
  mode := .current
  w := ⟨0, 0, false⟩
  acc := 0
  cnt := 0
  k := ⟨0, 0, false⟩
  input := []
  output := []
  emitted := none
  draws := 0

end Sys2Proof.Machine
end

