-- ==== Sys2Proof/Machine/Operands.lean ====
section
/-! DEFINITION. The operands of the commands and the constants they select: the sample
(spec/30_encoding.md R43) and the mode constants (spec/00_scope.md R6). `NOP` and `END` have none. -/

namespace Sys2Proof.Machine

/-- The sample operand `s = sext_8(data)` (30_encoding.md R43, 00_scope.md R9): not scaled or shifted. -/
abbrev sampleValue (data : SampleBits) : Int := data.toInt

/-- The constants a mode carries (00_scope.md R5, R6; 93_implementation_defined.md U10). -/
structure ModeConstants where
  /-- `INC` -/
  inc : Int
  /-- `DEC` -/
  dec : Int
  /-- `PREC`, the document's precisionBits -/
  prec : Nat
  /-- `ADAPTS` -/
  adapts : Bool
deriving DecidableEq, Repr

/-- The two-row table of R6. -/
def modeConstants : Mode → ModeConstants
  | .current => ⟨1, 1, 10, false⟩
  | .legacy => ⟨7, 20, 8, true⟩

/-- `HALF = 2^(PREC-1)`: 512 and 128 (R6). -/
def levelHalf (mc : ModeConstants) : Int := 2 ^ (mc.prec - 1)

/-- `RESP_MAX = 2^PREC - 1`: 1023 and 255 (R6). -/
def respMax (mc : ModeConstants) : Int := 2 ^ mc.prec - 1

/-- `RESP_FLOOR = 2 * 2^(PREC-8)`, used only when `PREC > 8` (R6): 8 in `current`. -/
def respFloor (mc : ModeConstants) : Int := 2 * 2 ^ (mc.prec - 8)

end Sys2Proof.Machine
end

