-- ==== Sys2Proof/Machine/Flags.lean ====
section
/-! DEFINITION. The decision bit and the comparison with the previous one. `lastBit` is the only flag of
the machine (spec/10_state.md R13); there is no carry, zero, sign or overflow flag. -/

namespace Sys2Proof.Machine

/-- Step 1, the decision (40_quantizer.md R54): true when `s > level`, or on the tie at the ceiling 127. -/
def decideBit (s level : Int) : Bool := decide (level < s ∨ (s = level ∧ level = 127))

/-- `same = (bit == lastBit)` (R58): one value for the target choice and for the nudge direction, from
the new decision and the previous one (R61, D22). -/
def sameDecision (bit lastBit : Bool) : Bool := bit == lastBit

end Sys2Proof.Machine
end

