-- ==== Sys2Proof/Machine/Ops.lean ====
section
/-! DEFINITION. The named operations the commands share: arithmetic over exact integers and its
narrowing into registers (spec/00_scope.md R9, spec/40_quantizer.md R66, R67), emission of a byte
(spec/20_memory.md R28), the fresh CodecState and the construction of a session, checkpoint and
rollback (spec/10_state.md R17).
There is no operation for taking an exception or returning from one: the block raises nothing and takes
nothing (spec/60_exceptions.md R91, R98, R99). There is no memory operation (R26, R38). -/

namespace Sys2Proof.Machine

/-! ### Arithmetic -/

/-- Arithmetic shift right, `asr(v, n) = floor(v / 2^n)` for negative `v` too (R9, R66). `Int`'s `/` by a
positive number is that floor. -/
def asr (v : Int) (n : Nat) : Int := v / 2 ^ n

/-- The signed register `level` from the exact new level. The guard holds in every state that meets the
invariants (40_quantizer.md R68); outside them the register holds a free value (log entry 5). -/
def narrowLevel (n : Int) : Level :=
  if -128 ≤ n ∧ n ≤ 127 then BitVec.ofInt 8 n else Config.levelOutOfRange n

/-- The unsigned register `response` from the exact new response, which fits its 10 bits from every
state (R67, R68; lemma `nextResponse_fits` of Laws/Quantizer.lean). -/
def narrowResponse (n : Int) : Response := BitVec.ofInt 10 n

/-! ### Output -/

/-- `Emit(b)`, the only output primitive (20_memory.md R28): appends `b` to the output byte stream and
shows it on the output pins in the same step. It cannot fail, block or be refused (R40). -/
def emit (b : Byte) (s : State) : State :=
  { s with output := s.output ++ [b], emitted := some b }

/-! ### Sessions, boundaries, the checkpoint -/

/-- `FRESH = (INIT_LEVEL, INIT_RESPONSE, INIT_LASTBIT)` (00_scope.md R9). -/
def freshCodec (c : Config) : CodecState :=
  ⟨c.initLevel, c.initResponse.setWidth 10, c.initLastBit⟩

/-- `acc <- 0`, `cnt <- 0`: the packer at a byte boundary (10_state.md R14, R16, D9). -/
def clearPacker (s : State) : State := { s with acc := 0, cnt := 0 }

/-- `K <- W` (10_state.md R17). -/
def takeCheckpoint (s : State) : State := { s with k := s.w }

/-- `W <- K` (10_state.md R17). -/
def rollBack (s : State) : State := { s with w := s.k }

/-- The writes that `START m` and reset share (42_session_buffer.md R79, 70_reset_and_hazards.md R104):
the mode, `W` and `K` fresh, the packer cleared. It emits nothing. -/
def constructSession (m : Mode) (s : State) : State :=
  clearPacker { s with mode := m, w := freshCodec s.config, k := freshCodec s.config }

end Sys2Proof.Machine
end

