-- ==== Sys2Proof/Machine/Packer.lean ====
section
/-! DEFINITION. The `bit_packer` (spec/41_bit_packer.md): packing of one decision bit, counting, and
emission of every eighth sample's byte. -/

namespace Sys2Proof.Machine

/-- `pack(acc, bit) = (acc >> 1) | (bit ? 0x80 : 0x00)` (R71). -/
def pack (acc : Byte) (bit : Bool) : Byte := (acc >>> 1) ||| (if bit then 0x80 else 0x00)

/-- Steps 2 and 4 (R71, R73) with the checkpoint (R74), on a state whose `w` is already the CodecState
after this sample: at `cnt == 7` the byte, with this decision in bit 7, is emitted, `K <- W` and the
packer starts again; otherwise the bit is kept and counted. -/
def packAndCount (bit : Bool) (s : State) : State :=
  if s.cnt = 7 then clearPacker (takeCheckpoint (emit (pack s.acc bit) s))
  else { s with acc := pack s.acc bit, cnt := s.cnt + 1 }

end Sys2Proof.Machine
end

