-- ==== Sys2Proof/Machine/Quantizer.lean ====
section
/-! DEFINITION. The `quantizer_state_machine` (spec/40_quantizer.md): the decision and the context update
of one sample, over exact integers. -/

namespace Sys2Proof.Machine

/-! ### Steps 3a to 3c: the level -/

/-- `target = bit ? 127 : -128` (R55). -/
def levelTarget (bit : Bool) : Int := if bit then 127 else -128

/-- The product-sum whose shift is the rounded move: `response * (target - level) + HALF` (R56, R67). -/
def levelSum (mc : ModeConstants) (bit : Bool) (level response : Int) : Int :=
  response * (levelTarget bit - level) + levelHalf mc

/-- `rawLevel = level + asr(response * (target - level) + HALF, PREC)` (R56). -/
def rawLevel (mc : ModeConstants) (bit : Bool) (level response : Int) : Int :=
  level + asr (levelSum mc bit level response) mc.prec

/-- The new level: the rounded move, nudged by one toward the target when it makes no progress (R57). -/
def nextLevel (mc : ModeConstants) (bit : Bool) (level response : Int) : Int :=
  if rawLevel mc bit level response = level ∧ level ≠ levelTarget bit then
    rawLevel mc bit level response + (if bit then 1 else -1)
  else rawLevel mc bit level response

/-! ### Steps 3d to 3f: the response -/

/-- `respTarget = same ? RESP_MAX : 0` (R58). -/
def respTarget (mc : ModeConstants) (same : Bool) : Int := if same then respMax mc else 0

/-- `respDelta = same ? INC : DEC` (R58). -/
def respDelta (mc : ModeConstants) (same : Bool) : Int := if same then mc.inc else mc.dec

/-- The product-sum of the response move: `respDelta * (respTarget - response) + 128` (R59, R67). -/
def respSum (mc : ModeConstants) (same : Bool) (response : Int) : Int :=
  respDelta mc same * (respTarget mc same - response) + 128

/-- `rawResp = response + asr(respSum, 8)`; the 128 and the 8 do not follow `PREC` (R59). -/
def rawResponse (mc : ModeConstants) (same : Bool) (response : Int) : Int :=
  response + asr (respSum mc same response) 8

/-- The adapting mode's response: the rounded move and its nudge (R59, R60). -/
def adaptedResponse (mc : ModeConstants) (same : Bool) (response : Int) : Int :=
  if rawResponse mc same response = response ∧ response ≠ respTarget mc same then
    rawResponse mc same response + (if same then 1 else -1)
  else rawResponse mc same response

/-- The new response: adapted or unchanged (R62), then the floor clamp when `PREC > 8` (R63). -/
def nextResponse (mc : ModeConstants) (bit lastBit : Bool) (response : Int) : Int :=
  let r := if mc.adapts then adaptedResponse mc (sameDecision bit lastBit) response else response
  if 8 < mc.prec then max r (respFloor mc) else r

/-! ### Step 3g: the commit -/

/-- One sample's decision and context update: `level`, `response` and `lastBit` all three from the old
values (R54, R64). The new `lastBit` is the decision. -/
def quantize (m : Mode) (w : CodecState) (x : SampleBits) : CodecState :=
  let mc := modeConstants m
  let bit := decideBit (sampleValue x) w.level.toInt
  ⟨narrowLevel (nextLevel mc bit w.level.toInt w.response.toNat),
   narrowResponse (nextResponse mc bit w.lastBit w.response.toNat),
   bit⟩

end Sys2Proof.Machine
end

