-- ==== Sys2Proof/Machine/Sample.lean ====
section
/-! DEFINITION. The command `SAMPLE` (spec/40_quantizer.md R53). -/

namespace Sys2Proof.Machine

/-- `SAMPLE s` (R53): the quantizer's decision and context update, committed to `W` (R64), and the
packer's half. The two halves do not depend on each other (R65); total for any sample and any state. -/
def execSample (x : SampleBits) (s : State) : Host.Outcome State Fault Refusal :=
  let w' := quantize s.mode s.w x
  .next (packAndCount w'.lastBit { s with w := w' })

end Sys2Proof.Machine
end

