-- ==== Sys2Proof/Machine/Session.lean ====
section
/-! DEFINITION. The commands of the top level, `NOP`, `START`, `END` (spec/42_session_buffer.md R78 to
R80), and hardware reset (spec/70_reset_and_hazards.md R104). -/

namespace Sys2Proof.Machine

/-- `NOP` (R78): no register is read or written, nothing is emitted. -/
def execNop (s : State) : Host.Outcome State Fault Refusal := .next s

/-- `START m` (R79): a fresh CodecState and the mode; whatever the packer held is discarded (R82). -/
def execStart (m : Mode) (s : State) : Host.Outcome State Fault Refusal :=
  .next (constructSession m s)

/-- What `END` does with the samples since the last byte boundary (R80, R85): with `REMAINDER_COMMITS`
they stay in `W` and `K <- W`; in the default configuration `W <- K`. -/
def settleRemainder (s : State) : State :=
  if s.config.remainderCommits then takeCheckpoint s else rollBack s

/-- `END` (R80): settles the remainder and discards the incomplete byte. It emits nothing. -/
def execEnd (s : State) : Host.Outcome State Fault Refusal :=
  .next (clearPacker (settleRemainder s))

/-- Hardware reset "performs exactly the writes of `START` with mode `RESET_MODE`" (R104). Bytes already
emitted stay emitted (R105). -/
def hardwareReset (s : State) : State := constructSession s.config.resetMode s

end Sys2Proof.Machine
end

