-- ==== Sys2Proof/Machine/Dispatch.lean ====
section
/-! DEFINITION. The dispatch from a command to its meaning, one arm per constructor of `Instr`
(spec/30_encoding.md R44). -/

namespace Sys2Proof.Machine

def exec (i : Instr) (s : State) : Host.Outcome State Fault Refusal :=
  match i with
  | .nop => Sys2Proof.Machine.execNop s
  | .start m => Sys2Proof.Machine.execStart m s
  | .sample x => Sys2Proof.Machine.execSample x s
  | .endBuffer => Sys2Proof.Machine.execEnd s

end Sys2Proof.Machine
end

