-- ==== Sys2Proof/WellFormed.lean ====
section
/-! DEFINITION. The well-formedness checks.
Every term of `Instr` is well formed: its operands are exactly the bits the encoding has for them
(spec/92_eei_decisions.md D7). What can be ill formed is a command WORD (a reserved encoding,
spec/30_encoding.md R48) and a LINE of the textual notation (a sample out of range, R50, R93). -/

namespace Sys2Proof

/-- A reserved command word, by the two ranges of 30_encoding.md R48: `op = 01` with
`data[7:1] != 0` (`0x102` to `0x1FF`) and `op = 11` with `data != 0` (`0x301` to `0x3FF`). -/
def wordReserved (w : CommandWord) : Bool :=
  (0x102 ≤ w.toNat && w.toNat ≤ 0x1FF) || (0x301 ≤ w.toNat && w.toNat ≤ 0x3FF)

/-- A command word the spec gives a meaning: one of the 515 that are not reserved (R44, R48). -/
def wordDefined (w : CommandWord) : Bool := !wordReserved w

/-- "Sample: signed integer in [-128, 127]" (20_memory.md R25). -/
def sampleInRange (n : Int) : Bool := decide (-128 ≤ n) && decide (n ≤ 127)

/-- "A sample outside [-128, 127] is a syntax error of the text, not a command" (30_encoding.md R50);
it is refused, not clamped or wrapped (60_exceptions.md R93). -/
def TextLine.wellFormed : TextLine → Bool
  | .nop => true
  | .start _ => true
  | .sample n => sampleInRange n
  | .endBuffer => true
  | .buffer ns => ns.all sampleInRange
  | .session _ => true
  | .idle _ => true

end Sys2Proof
end

