-- ==== Sys2Proof/Decode.lean ====
section
/-! DEFINITION. Decoding and encoding of command words (spec/30_encoding.md R42 to R49), the opcode map
(R44), and the expansion of the textual notation's lines into commands (R50 to R52). -/

namespace Sys2Proof

/-! ### The one format, `C` (R42) -/

/-- `op = cmd[9:8]` (R42). -/
def opField (w : CommandWord) : BitVec 2 := w.extractLsb' 8 2

/-- `data = cmd[7:0]` (R42). -/
def dataField (w : CommandWord) : BitVec 8 := w.extractLsb' 0 8

/-- `cmd = op || data`, `op` in the more significant bits (R42, R9). -/
def commandWord (op : BitVec 2) (data : BitVec 8) : CommandWord := op ++ data

/-- `data[7:1]`, which `START` requires to be 0 (R43, R46). -/
def startPadding (data : BitVec 8) : BitVec 7 := data.extractLsb' 1 7

/-- The mode operand `m = data[0]`: 0 is `current`, 1 is `legacy` (R43, D3). -/
def modeOfBit (b : Bool) : Mode := if b then .legacy else .current

/-- The bit that encodes a mode (10_state.md R15, D3). -/
def Mode.bit : Mode → Bool
  | .current => false
  | .legacy => true

/-! ### Decoding and encoding (R49) -/

/-- The decoding procedure of R49: total on any 10-bit word, uses no state; `none` is `RESERVED` (R48). -/
def decode (w : CommandWord) : Option Instr :=
  if opField w = 0b00#2 then some .nop
  else if opField w = 0b01#2 ∧ startPadding (dataField w) = 0 then
    some (.start (modeOfBit ((dataField w).getLsbD 0)))
  else if opField w = 0b10#2 then some (.sample (dataField w))
  else if opField w = 0b11#2 ∧ dataField w = 0 then some .endBuffer
  else none

/-- The canonical word of a command (R49): `0x000`, `0x100 + m`, `0x200 + (s mod 256)`, `0x300`. -/
def encode : Instr → CommandWord
  | .nop => commandWord 0b00#2 0
  | .start m => commandWord 0b01#2 ((0 : BitVec 7) ++ BitVec.ofBool m.bit)
  | .sample s => commandWord 0b10#2 s
  | .endBuffer => commandWord 0b11#2 0

/-- The instruction the decoder reads from the word `w` of an opcode-table row of `nbits` bits, in
whole bytes. Bits from `nbits` on are 0; a number that needs more than 10 bits is no command word
(R41), so nothing is read from it. -/
def decodeTableWord (nbits w : Nat) : Option Instr :=
  if w % 2 ^ nbits < 1024 then decode (BitVec.ofNat 10 (w % 2 ^ nbits)) else none

/-! ### The opcode map (R44) -/

/-- One row of the opcode map: "A word `w` selects a row when `(w & mask) == match`" (R44). -/
structure OpcodeRow where
  mnemonic : String
  pattern : CommandWord
  mask : CommandWord
deriving DecidableEq, Repr

/-- The four rows of R44, in its order. -/
def opcodeRows : List OpcodeRow :=
  [⟨"NOP", 0x000, 0x300⟩, ⟨"START", 0x100, 0x3FE⟩, ⟨"SAMPLE", 0x200, 0x300⟩, ⟨"END", 0x300, 0x3FF⟩]

/-- Whether a word selects a row (R44). -/
def OpcodeRow.selects (r : OpcodeRow) (w : CommandWord) : Bool := w &&& r.mask == r.pattern

/-- The mnemonic of a command (R44). -/
def Instr.mnemonic : Instr → String
  | .nop => "NOP"
  | .start _ => "START"
  | .sample _ => "SAMPLE"
  | .endBuffer => "END"

/-! ### The textual notation (R50 to R52) -/

/-- The 8 operand bits of a sample written as an integer, `s mod 256` (R49). -/
def sampleBits (n : Int) : SampleBits := BitVec.ofInt 8 n

/-- The commands a line stands for: itself, or a pseudo-command's expansion (R51); `none` for a line
that is not well formed (a sample out of range is a syntax error, R50). -/
def TextLine.expand (l : TextLine) : Option (List Instr) :=
  if l.wellFormed then
    some (match l with
      | .nop => [.nop]
      | .start m => [.start m]
      | .sample n => [.sample (sampleBits n)]
      | .endBuffer => [.endBuffer]
      | .buffer ns => ns.map (fun n => .sample (sampleBits n)) ++ [.endBuffer]
      | .session m => [.start m]
      | .idle k => List.replicate k .nop)
  else none

/-- The command sequence of a text; `none` as soon as one line is a syntax error. -/
def assemble : List TextLine → Option (List Instr)
  | [] => some []
  | l :: ls =>
    match l.expand, assemble ls with
    | some is, some rest => some (is ++ rest)
    | _, _ => none

/-- A whole encoding session of one asset (R52): `SESSION <mode>`, then one `BUFFER` per chunk. -/
def sessionText (m : Mode) (chunks : List (List Int)) : List TextLine :=
  .session m :: chunks.map .buffer

end Sys2Proof
end

