-- ==== Sys2Proof/Machine/Port.lean ====
section
/-! DEFINITION. The pins of the block (spec/20_memory.md R39, R40): which edge the host presents, what it
asks for, and what the output pins show. -/

namespace Sys2Proof.Machine

/-! ### Input pins -/

/-- An edge at which the host presents nothing: `cmd_valid = 0`, `rst = 0` (`cmd` is ignored, R39). -/
def Edge.idle : Edge := ⟨false, false, 0⟩

/-- An edge at which the host presents a command word. -/
def Edge.ofWord (w : CommandWord) : Edge := ⟨false, true, w⟩

/-- An edge at which the host presents a command in its canonical word (30_encoding.md R49). -/
def Edge.ofInstr (i : Instr) : Edge := Edge.ofWord (encode i)

/-- What the pins ask the block to do at one edge. -/
inductive Action where
  /-- hardware reset -/
  | reset
  /-- perform a command -/
  | perform (i : Instr)
  /-- a reserved word, to which the spec gives no meaning (30_encoding.md R48) -/
  | reserved
deriving DecidableEq, Repr

/-- What an edge asks for: `rst` has priority over the command (60_exceptions.md R97);
`cmd_valid = 0` is performed as `NOP`, whatever is on `cmd` (30_encoding.md R45); otherwise the word is
decoded (R41). -/
def Edge.action (e : Edge) : Action :=
  if e.rst then .reset
  else if e.cmdValid then
    match decode e.cmd with
    | some i => .perform i
    | none => .reserved
  else .perform .nop

/-- The edge the next step sees: the next one of the command stream, or an idle one when the host sends
nothing (60_exceptions.md R102, 20_memory.md R40). -/
def State.presentedEdge (s : State) : Edge := s.input.headD Edge.idle

/-- The state in which a step performs its action: the edge is consumed, no byte has been emitted in this
step yet, and one more free value is drawn for an idle `out_byte` (log entry 4). -/
def State.beginStep (s : State) : State :=
  { s with input := s.input.tail, emitted := none, draws := s.draws + 1 }

/-- The command stream replaced by `es`. -/
def State.withInput (s : State) (es : List Edge) : State := { s with input := es }

/-! ### Output pins -/

/-- Pin `out_valid`: "1 exactly in a step whose command emits a byte" (R39). -/
def State.outValid (s : State) : Bool := s.emitted.isSome

/-- Pin `out_byte`: the emitted byte when `out_valid = 1`, otherwise a free value (R39, U6). -/
def State.outByte (s : State) : Byte :=
  match s.emitted with
  | some b => b
  | none => Config.idleOutByte s.draws

end Sys2Proof.Machine
end

