-- ==== Sys2Proof/Machine/Step.lean ====
section
/-! DEFINITION. One step of the block: one rising edge of `clk` (spec/30_encoding.md R41,
spec/20_memory.md R39). -/

namespace Sys2Proof.Machine

/-- One step: take the edge the host presents and do what it asks for. A reserved word is refused
(30_encoding.md R48); there is no fault (60_exceptions.md R91). -/
def step (s : State) : Host.Outcome State Fault Refusal :=
  match s.presentedEdge.action with
  | .reset => .next (hardwareReset s.beginStep)
  | .perform i => exec i s.beginStep
  | .reserved => .refused .reservedEncoding

/-- `s` with the word of an opcode-table row presented at the next edge: the block has no stored program
(spec/20_memory.md R36), so the next instruction stands at the front of the command stream. -/
def State.withFetchWord (s : State) (nbits w : Nat) : State :=
  s.withInput (Edge.ofWord (BitVec.ofNat 10 (w % 2 ^ nbits)) :: s.input)

end Sys2Proof.Machine
end

