-- ==== Sys2Proof/Machine/Several.lean ====
section
/-! DEFINITION. Several copies of the block side by side (spec/60_exceptions.md R101): each is a state of
its own, they share nothing and do not communicate. -/

namespace Sys2Proof.Machine

/-- One step of copy number `n`: the others are not touched (R101). A number that names no copy is no step.

DESIGN CHOICE, safe, log entry 10: a reserved word sent to one copy makes the joint step of all copies a
refusal, and with it the joint run. The spec defines refusal, and a run, for one block
(spec/60_exceptions.md R94, spec/70_reset_and_hazards.md R116) and does not say what one copy's refusal
means for the others. Each other copy still has its own `step`, which nothing here touches. -/
def stepCopy (n : Nat) (blocks : List State) : Option (Host.Outcome (List State) Fault Refusal) :=
  match blocks[n]? with
  | none => none
  | some s =>
    some (match step s with
      | .next t => .next (blocks.set n t)
      | .fault r => .fault r
      | .refused r => .refused r)

end Sys2Proof.Machine
end

