-- ==== Sys2Proof/Machine/Text.lean ====
section
/-! DEFINITION. Reading the textual notation of spec/30_encoding.md R50 and R51: one command per line,
mnemonics in upper case, mode names in lower case, `;` starts a comment. The notation is not part of the
block; `TextLine.expand` and `assemble` (Decode.lean) turn what is read here into commands.
What the spec leaves open of it (blanks, comment lines, the shape of a decimal) is log entry 8. -/

namespace Sys2Proof.Machine

/-- A token: a run of characters without blanks, or one of `[`, `]`, `,`. -/
abbrev Token := List Char

/-- A character that separates tokens. -/
def isBlank (c : Char) : Bool := c == ' ' || c == '\t' || c == '\r'

/-- A character that is a token by itself. -/
def isPunctuation (c : Char) : Bool := c == '[' || c == ']' || c == ','

/-- The token read so far (kept newest character first), if any, in front of the others. -/
def flushToken (cur : Token) (rest : List Token) : List Token :=
  if cur = [] then rest else cur.reverse :: rest

/-- The tokens of a line up to the comment. -/
def tokensFrom : List Char → Token → List Token
  | [], cur => flushToken cur []
  | c :: cs, cur =>
    if c = ';' then flushToken cur []
    else if isBlank c then flushToken cur (tokensFrom cs [])
    else if isPunctuation c then flushToken cur ([c] :: tokensFrom cs [])
    else tokensFrom cs (c :: cur)

/-- A decimal number without sign. -/
def readNat (t : Token) : Option Nat :=
  if t ≠ [] ∧ t.all Char.isDigit then
    some (t.foldl (fun n c => 10 * n + (c.toNat - '0'.toNat)) 0)
  else none

/-- A decimal integer: digits, with a minus sign or none. -/
def readInt : Token → Option Int
  | '-' :: ds => (readNat ds).map (fun n => -(n : Int))
  | ds => (readNat ds).map (fun n => (n : Int))

/-- A mode name, in lower case (R50). -/
def readMode (t : Token) : Option Mode :=
  if t = "current".toList then some .current
  else if t = "legacy".toList then some .legacy
  else none

/-- The elements of a `BUFFER` list after its opening bracket, at least one. -/
def readElements : List Token → Option (List Int)
  | t :: u :: rest =>
    match readInt t with
    | none => none
    | some n =>
      if u = [']'] then (if rest = [] then some [n] else none)
      else if u = [','] then (readElements rest).map (n :: ·)
      else none
  | _ => none

/-- A line's tokens read as a command or a pseudo-command; `none` is a syntax error. -/
def parseTokens : List Token → Option TextLine
  | [a] =>
    if a = "NOP".toList then some .nop
    else if a = "END".toList then some .endBuffer
    else none
  | [a, b] =>
    if a = "START".toList then (readMode b).map .start
    else if a = "SAMPLE".toList then (readInt b).map .sample
    else if a = "SESSION".toList then (readMode b).map .session
    else if a = "IDLE".toList then (readNat b).map .idle
    else none
  | a :: b :: rest =>
    if a = "BUFFER".toList ∧ b = ['['] then
      (if rest = [[']']] then some (.buffer []) else (readElements rest).map .buffer)
    else none
  | [] => none

/-- A text's lines. -/
def linesFrom : List Char → List Char → List (List Char)
  | [], cur => [cur.reverse]
  | c :: cs, cur => if c = '\n' then cur.reverse :: linesFrom cs [] else linesFrom cs (c :: cur)

/-- The lines read, those with nothing but blanks and a comment left out; `none` at a syntax error. -/
def parseLines : List (List Char) → Option (List TextLine)
  | [] => some []
  | cs :: rest =>
    match tokensFrom cs [] with
    | [] => parseLines rest
    | ts =>
      match parseTokens ts, parseLines rest with
      | some l, some ls => some (l :: ls)
      | _, _ => none

/-- The commands a text stands for (R50, R51); `none` when a line is a syntax error. -/
def assembleText (text : String) : Option (List Instr) :=
  match parseLines (linesFrom text.toList []) with
  | some ls => assemble ls
  | none => none

end Sys2Proof.Machine
end

