-- ==== Sys2Proof/Machine/Buffer.lean ====
section
/-! DEFINITION. The buffer contract as a function (spec/42_session_buffer.md R83): what one call of the
software's encode operation yields, written without the packer, the counter and the checkpoint. The
step never calls it; the machine is compared with it. -/

namespace Sys2Proof.Machine

/-- The CodecState after a list of samples: `step(W, s)` of R83, repeated. -/
def codecFold (m : Mode) (w : CodecState) (xs : List SampleBits) : CodecState :=
  xs.foldl (quantize m) w

/-- The decision bits of a list of samples, oldest first. -/
def decisions (m : Mode) : CodecState → List SampleBits → List Bool
  | _, [] => []
  | w, x :: xs => decideBit (sampleValue x) w.level.toInt :: decisions m (quantize m w x) xs

/-- `b0*1 + b1*2 + b2*4 + ...` (41_bit_packer.md R72). -/
def weightedSum : List Bool → Nat
  | [] => 0
  | b :: bs => b.toNat + 2 * weightedSum bs

/-- The first `n` whole groups of eight samples: the byte of each, and the CodecState after them (R83). -/
def encodeGroups (m : Mode) : Nat → CodecState → List SampleBits → List Byte × CodecState
  | 0, w, _ => ([], w)
  | n + 1, w, xs =>
    let rest := encodeGroups m n (codecFold m w (xs.take 8)) (xs.drop 8)
    (BitVec.ofNat 8 (weightedSum (decisions m w (xs.take 8))) :: rest.1, rest.2)

/-- `encodeBuffer(W0, [s0 .. s(L-1)])` (R83): `floor(L / 8)` bytes; the remainder's samples move the
CodecState only when `REMAINDER_COMMITS` is true. -/
def encodeBuffer (commits : Bool) (m : Mode) (w0 : CodecState) (xs : List SampleBits) :
    List Byte × CodecState :=
  let n := xs.length / 8
  let groups := encodeGroups m n w0 xs
  (groups.1, if commits then codecFold m groups.2 (xs.drop (8 * n)) else groups.2)

end Sys2Proof.Machine
end

