-- ==== Sys2Proof/Safety.lean ====
section
/-! DEFINITION. The terms claims are stated in: the registers as one value, the invariants of
spec/10_state.md R18, runs and their results (spec/70_reset_and_hazards.md R116), and what the host must
not send (R117). -/

namespace Sys2Proof.Machine

/-! ### The registers -/

/-- The nine registers of 10_state.md R10 and nothing else. -/
structure Registers where
  mode : Mode
  w : CodecState
  acc : Byte
  cnt : BitVec 3
  k : CodecState
deriving DecidableEq, Repr

/-- The values of the nine registers. -/
def State.registers (s : State) : Registers := ⟨s.mode, s.w, s.acc, s.cnt, s.k⟩

/-! ### The invariants (R18) -/

/-- `0 <= response <= RESP_MAX` for the mode, of a CodecState (R18). Its `level` is in range by type. -/
abbrev CodecState.InRange (m : Mode) (w : CodecState) : Prop :=
  (w.response.toNat : Int) ≤ respMax (modeConstants m)

/-- In `current` mode the response is at least 8, but for a CodecState no sample has moved since the
session began (R12, R18). -/
abbrev CodecState.Floored (c : Config) (m : Mode) (w : CodecState) : Prop :=
  m = .current → 8 ≤ w.response.toNat ∨ w = freshCodec c

/-- The invariants of R18, with the low bits of `acc` as R16 gives them (bits `7-n` down to 0 are 0 when
`cnt == n`, so `acc == 0` when `cnt == 0`), in the form every step keeps: the floor holds of `W` unless it
is fresh and always inside a group, and of `K` unless it is fresh. -/
abbrev State.Inv (s : State) : Prop :=
  s.w.InRange s.mode ∧ s.k.InRange s.mode ∧
  s.w.Floored s.config s.mode ∧ s.k.Floored s.config s.mode ∧
  (s.mode = .current → s.cnt ≠ 0 → 8 ≤ s.w.response.toNat) ∧
  (s.cnt = 0 → s.k = s.w) ∧
  s.acc.toNat % 2 ^ (8 - s.cnt.toNat) = 0

/-! ### Runs (R116) -/

/-- Commands performed one after another, without the pins. -/
def runCommands : List Instr → State → Host.Outcome State Fault Refusal
  | [], s => .next s
  | i :: is, s =>
    match exec i s with
    | .next t => runCommands is t
    | .fault r => .fault r
    | .refused r => .refused r

/-- `n` steps, stopping at the first refusal. -/
def runSteps : Nat → State → Host.Outcome State Fault Refusal
  | 0, s => .next s
  | n + 1, s =>
    match step s with
    | .next t => runSteps n t
    | .fault r => .fault r
    | .refused r => .refused r

/-- A run: the edges `es` presented to the block in state `s`, one per step, until the last has been
performed (R116). A refusal is the outcome of the whole run (R94). -/
def runEdges (es : List Edge) (s : State) : Host.Outcome State Fault Refusal :=
  runSteps es.length (s.withInput es)

/-- The commands of one encode call on a buffer of samples (30_encoding.md R51, 42_session_buffer.md R83). -/
def bufferCommands (xs : List SampleBits) : List Instr := xs.map .sample ++ [.endBuffer]

/-- The result of a run that started with `s.output = []` (R116): the bytes emitted and the registers. -/
def State.result (s : State) : List Byte × Registers := (s.output, s.registers)

/-- What can be seen of a run's outcome from outside, and the registers: `none` for a refused run. -/
def outcomeResult : Host.Outcome State Fault Refusal → Option (List Byte × Registers)
  | .next t => some t.result
  | .fault _ => none
  | .refused _ => none

/-- What the host can see of a run's outcome: the output bytes; `none` for a refused run (D16). -/
def outcomeOutput : Host.Outcome State Fault Refusal → Option (List Byte)
  | .next t => some t.output
  | .fault _ => none
  | .refused _ => none

/-- A run of commands is complete when its last is `END` or it ends at `cnt == 0` (R116). -/
def runComplete (is : List Instr) (final : State) : Bool :=
  is.getLast? == some .endBuffer || final.cnt == 0

/-! ### The host's duties (R117) -/

/-- An edge the host may present: not a reserved command word (30_encoding.md R48, R117). -/
def Edge.allowed (e : Edge) : Bool := e.action != .reserved

/-- An edge that is performed as `NOP`: no command, or a word with `op = 00` (30_encoding.md R45). -/
def Edge.isIdle (e : Edge) : Bool := e.action == .perform .nop

end Sys2Proof.Machine
end

