-- ==== Sys2Proof/Certificates/Slice0/Obligations.lean ====
section
/-! DEFINITION. The statements for the provers. Each is about every state and every operand the encoding
admits, unless its premises say otherwise; `Int`'s `/` by a positive literal is the floor of the quotient,
the arithmetic shift of spec/00_scope.md R9. -/

open Sys2Proof Sys2Proof.Machine

/-! ### Reset, sessions, the commands of the top level -/

/-- 10_state.md R19, both columns of its table: the registers right after reset, with the default
parameters; after `START m` from any state, with any parameters; and a step at an edge with `rst = 1`
leaves what `START RESET_MODE` would. -/
def Obligations.RegisterValuesAfterResetAndStart : Prop :=
  State.reset.registers = ⟨.current, ⟨0, 0, false⟩, 0, 0, ⟨0, 0, false⟩⟩ ∧
  State.reset.config = ⟨0, 0, false, false, .current⟩ ∧
  ∀ s : State,
    let fresh : CodecState := ⟨s.config.initLevel, s.config.initResponse.setWidth 10, s.config.initLastBit⟩
    (∀ m, ∃ t, exec (.start m) s = .next t ∧ t.registers = ⟨m, fresh, 0, 0, fresh⟩) ∧
    (s.presentedEdge.rst = true →
      ∃ t, step s = .next t ∧ t.registers = ⟨s.config.resetMode, fresh, 0, 0, fresh⟩)

/-- 42_session_buffer.md R78: `NOP` answers the very same state (no register read or written, nothing
emitted, no flag), once and any number of times; its words are those with `op = 00`, the canonical one
`0x000`; and a step with `cmd_valid = 0` is the step that a `NOP` word gives. -/
def Obligations.NopChangesNothing : Prop :=
  (∀ s : State, exec .nop s = .next s) ∧
  (∀ (n : Nat) (s : State), runCommands (List.replicate n .nop) s = .next s) ∧
  (∀ w : CommandWord, decode w = some .nop ↔ w.toNat < 256) ∧
  encode .nop = 0x000 ∧
  (∀ (s : State) (w w' : CommandWord) (es : List Edge), w'.toNat < 256 →
    step (s.withInput (⟨false, false, w⟩ :: es)) = step (s.withInput (⟨false, true, w'⟩ :: es)))

/-- 42_session_buffer.md R79, R82: `START m` from every state, at any `cnt`: the mode is `m`, `W` and `K`
are fresh, `acc` and `cnt` are 0, everything else stands (nothing is emitted) and no register of before
has any part in it; its words; a second `START` alone counts; and no other command writes `MODE`. -/
def Obligations.StartBeginsFreshSession : Prop :=
  (∀ (m : Mode) (s : State),
    let fresh : CodecState := ⟨s.config.initLevel, s.config.initResponse.setWidth 10, s.config.initLastBit⟩
    exec (.start m) s = .next { s with mode := m, w := fresh, k := fresh, acc := 0, cnt := 0 }) ∧
  (∀ w : CommandWord, decode w = some (.start .current) ↔ w = 0x100) ∧
  (∀ w : CommandWord, decode w = some (.start .legacy) ↔ w = 0x101) ∧
  (∀ (m m' : Mode) (s : State), runCommands [.start m', .start m] s = exec (.start m) s) ∧
  (∀ (i : Instr) (s t : State), exec i s = .next t → (∀ m, i ≠ .start m) → t.mode = s.mode)

/-- 42_session_buffer.md R80: `END` from every state in both configurations, with everything it leaves;
its one word; no effect right after `START`; and a second `END` has no effect. -/
def Obligations.EndSettlesRemainder : Prop :=
  (∀ s : State, s.config.remainderCommits = true →
    exec .endBuffer s = .next { s with k := s.w, acc := 0, cnt := 0 }) ∧
  (∀ s : State, s.config.remainderCommits = false →
    exec .endBuffer s = .next { s with w := s.k, acc := 0, cnt := 0 }) ∧
  (∀ w : CommandWord, decode w = some .endBuffer ↔ w = 0x300) ∧
  (∀ (m : Mode) (s : State), runCommands [.start m, .endBuffer] s = exec (.start m) s) ∧
  exec .endBuffer State.reset = .next State.reset ∧
  (∀ s : State, runCommands [.endBuffer, .endBuffer] s = exec .endBuffer s)

/-- 42_session_buffer.md section 1, the spec's own inference: at `cnt == 0`, in a state that meets the
invariants, `END` changes nothing in either configuration. -/
def Obligations.EndAtBoundaryChangesNothing : Prop :=
  ∀ s : State, s.Inv → s.cnt = 0 → exec .endBuffer s = .next s

/-- 20_memory.md section 4, the spec's own inference: `NOP`, `START m` and `END` performed twice in a row
leave what performing them once leaves; `SAMPLE` never does. -/
def Obligations.AllButSampleIdempotent : Prop :=
  (∀ (i : Instr) (s : State), (∀ x, i ≠ .sample x) → runCommands [i, i] s = exec i s) ∧
  (∀ (x : SampleBits) (s : State), runCommands [.sample x, .sample x] s ≠ exec (.sample x) s)

/-! ### SAMPLE: the quantizer -/

/-- 40_quantizer.md R54: `SAMPLE x` decides true when the sample is above the `level` of before, or equal to
it at 127; the decision is the new `lastBit`. Every other tie, -128 included, decides false. -/
def Obligations.SampleDecidesByLevel : Prop :=
  ∀ (x : SampleBits) (s : State), ∃ t, exec (.sample x) s = .next t ∧
    (t.w.lastBit = true ↔
      (s.w.level.toInt < x.toInt ∨ (x.toInt = s.w.level.toInt ∧ s.w.level.toInt = 127))) ∧
    (x.toInt = s.w.level.toInt → s.w.level.toInt ≠ 127 → t.w.lastBit = false)

/-- 40_quantizer.md R55, R56, R57: the new level is the rounded move from the old level and the old
response toward the target, nudged by one when it makes no progress short of the target. The premise is
the range invariant of `response` (R18), without which the spec gives no result. -/
def Obligations.SampleMovesLevel : Prop :=
  ∀ (x : SampleBits) (s : State), (s.mode = .legacy → s.w.response.toNat ≤ 255) →
    let level : Int := s.w.level.toInt
    let response : Int := s.w.response.toNat
    let bit : Bool := decide (level < x.toInt ∨ (x.toInt = level ∧ level = 127))
    let target : Int := if bit then 127 else -128
    let rawLevel : Int := match s.mode with
      | .current => level + (response * (target - level) + 512) / 1024
      | .legacy => level + (response * (target - level) + 128) / 256
    ∃ t, exec (.sample x) s = .next t ∧ t.w.lastBit = bit ∧
      t.w.level.toInt =
        (if rawLevel = level ∧ level ≠ target then rawLevel + (if bit then 1 else -1) else rawLevel)

/-- 40_quantizer.md R58, R59, R60, R62, R63: the new response, from every state. In `legacy` mode the
rounded move with its nudge and no clamp, on whether the decision repeats the `lastBit` of before; in
`current` mode unchanged and then clamped to 8. -/
def Obligations.SampleAdaptsResponse : Prop :=
  ∀ (x : SampleBits) (s : State),
    let response : Int := s.w.response.toNat
    ∃ t, exec (.sample x) s = .next t ∧
      (s.mode = .current → (t.w.response.toNat : Int) = max response 8) ∧
      (s.mode = .legacy →
        let same : Bool := t.w.lastBit == s.w.lastBit
        let respTarget : Int := if same then 255 else 0
        let respDelta : Int := if same then 7 else 20
        let rawResp : Int := response + (respDelta * (respTarget - response) + 128) / 256
        (t.w.response.toNat : Int) =
          (if rawResp = response ∧ response ≠ respTarget then rawResp + (if same then 1 else -1)
           else rawResp))

/-- 40_quantizer.md section 5 (step 3g): the new response does not use `level` at all, and the new level
does not use `lastBit`: two samples that decide alike, from states that agree on the mode and on what the
update reads, agree on the result, whatever the rest holds. -/
def Obligations.UpdateReadsOnlyOldRegisters : Prop :=
  ∀ (x y : SampleBits) (s u s' u' : State), exec (.sample x) s = .next s' → exec (.sample y) u = .next u' →
    s.mode = u.mode → s'.w.lastBit = u'.w.lastBit → s.w.response = u.w.response →
    (s.w.lastBit = u.w.lastBit → s'.w.response = u'.w.response) ∧
    (s.w.level = u.w.level → s'.w.level = u'.w.level)

/-- 40_quantizer.md section 6, the spec's own proof: from a response within the mode's ceiling the level
moves toward its target without passing it and stops only there, and the response stays in range. -/
def Obligations.LevelMovesTowardTarget : Prop :=
  ∀ (x : SampleBits) (s : State), (s.mode = .legacy → s.w.response.toNat ≤ 255) →
    ∃ t, exec (.sample x) s = .next t ∧
      (t.w.lastBit = true → s.w.level.toInt ≤ t.w.level.toInt ∧
        (s.w.level.toInt ≠ 127 → s.w.level.toInt < t.w.level.toInt)) ∧
      (t.w.lastBit = false → t.w.level.toInt ≤ s.w.level.toInt ∧
        (s.w.level.toInt ≠ -128 → t.w.level.toInt < s.w.level.toInt)) ∧
      (s.mode = .legacy → t.w.response.toNat ≤ 255)

/-- 40_quantizer.md section 6, the spec's own bounds: the intermediate values of the level update and of
the response update stay in the ranges given, for every decision and every value the registers take. -/
def Obligations.IntermediatesStayInWidth : Prop :=
  ∀ (bit same : Bool) (level response : Int), -128 ≤ level → level ≤ 127 → 0 ≤ response →
    (-255 ≤ levelTarget bit - level ∧ levelTarget bit - level ≤ 255) ∧
    (response ≤ 1023 →
      -260353 ≤ levelSum (modeConstants .current) bit level response ∧
      levelSum (modeConstants .current) bit level response ≤ 261377) ∧
    (response ≤ 255 →
      -64897 ≤ levelSum (modeConstants .legacy) bit level response ∧
      levelSum (modeConstants .legacy) bit level response ≤ 65153 ∧
      -4972 ≤ respSum (modeConstants .legacy) same response ∧
      respSum (modeConstants .legacy) same response ≤ 1913)

/-- 40_quantizer.md section 7, derived by the spec: in `current` mode the response of a session is
`max(INIT_RESPONSE, 8)` from its first sample on, and from a response of 8 the level moves by the closed
form of the table. -/
def Obligations.CurrentModeClosedForm : Prop :=
  (∀ (s : State) (xs : List SampleBits), xs ≠ [] →
    ∃ t, runCommands (.start .current :: xs.map .sample) s = .next t ∧
      t.w.response.toNat = max s.config.initResponse.toNat 8) ∧
  (∀ (x : SampleBits) (s : State), s.mode = .current → s.w.response = 8 →
    let level : Int := s.w.level.toInt
    ∃ t, exec (.sample x) s = .next t ∧
      t.w.level.toInt =
        (if t.w.lastBit then
          (if level ≤ -65 then level + 2 else if level ≤ 126 then level + 1 else 127)
         else
          (if 65 ≤ level then level - 2 else if -127 ≤ level then level - 1 else -128)))

/-- 40_quantizer.md section 7, derived by the spec: `SAMPLE 127` decides true and `SAMPLE -128` decides
false in any mode and any state; so from a byte boundary a constant 127 gives only bytes `0xFF` and a
constant -128 only bytes `0x00`, from the first byte on. -/
def Obligations.ExtremeSamplesDecide : Prop :=
  (∀ s : State, ∃ t, exec (.sample 0x7F) s = .next t ∧ t.w.lastBit = true) ∧
  (∀ s : State, ∃ t, exec (.sample 0x80) s = .next t ∧ t.w.lastBit = false) ∧
  (∀ (n : Nat) (s : State), s.cnt = 0 →
    (∃ t, runCommands (List.replicate (8 * n) (.sample 0x7F)) s = .next t ∧
      t.output = s.output ++ List.replicate n 0xFF) ∧
    (∃ t, runCommands (List.replicate (8 * n) (.sample 0x80)) s = .next t ∧
      t.output = s.output ++ List.replicate n 0x00))

/-- The bounded form of "constant input of 127 converges" (40_quantizer.md section 7): in either mode, from
every state whose response is within the ceiling, 255 samples are enough for the level to arrive, and it
stays. The bound 255 is this model's own consequence of the nudge. -/
def Obligations.ConstantExtremeConverges : Prop :=
  ∀ (n : Nat) (s : State), (s.mode = .legacy → s.w.response.toNat ≤ 255) → 255 ≤ n →
    (∃ t, runCommands (List.replicate n (.sample 0x7F)) s = .next t ∧ t.w.level.toInt = 127) ∧
    (∃ t, runCommands (List.replicate n (.sample 0x80)) s = .next t ∧ t.w.level.toInt = -128)

/-- The only flag (10_state.md section 2): what each command leaves in `lastBit`, from every state. -/
def Obligations.LastBitWrites : Prop :=
  ∀ (i : Instr) (s : State), ∃ t, exec i s = .next t ∧
    t.w.lastBit = (match i with
      | .nop => s.w.lastBit
      | .start _ => s.config.initLastBit
      | .sample x => decide (s.w.level.toInt < x.toInt ∨ (x.toInt = s.w.level.toInt ∧ s.w.level.toInt = 127))
      | .endBuffer => if s.config.remainderCommits then s.w.lastBit else s.k.lastBit)

/-! ### SAMPLE: the packer -/

/-- 41_bit_packer.md R71, R73 with the writes of R74: what `SAMPLE` does to `acc`, `cnt`, `K` and the output
stream, from every state. At `cnt == 7` the packed byte, this decision in bit 7, is emitted, `acc` and
`cnt` become 0 and `K` the new `W`; below 7 the packed byte is kept, `cnt` advances, `K` and the output
stand. The packed byte is `acc` shifted right by one with the decision in bit 7. -/
def Obligations.SamplePacksAndEmits : Prop :=
  ∀ (x : SampleBits) (s : State), ∃ t, exec (.sample x) s = .next t ∧
    ∃ accNext : Byte,
      accNext = (s.acc >>> 1) ||| (if t.w.lastBit then 0x80 else 0x00) ∧
      accNext.toNat = s.acc.toNat / 2 + (if t.w.lastBit then 128 else 0) ∧
      (s.cnt.toNat = 7 → t.emitted = some accNext ∧ t.output = s.output ++ [accNext] ∧
        t.acc = 0 ∧ t.cnt = 0 ∧ t.k = t.w) ∧
      (s.cnt.toNat < 7 → t.emitted = s.emitted ∧ t.output = s.output ∧
        t.acc = accNext ∧ t.cnt.toNat = s.cnt.toNat + 1 ∧ t.k = s.k)

/-- The frame of `SAMPLE` (40_quantizer.md R53, its list of writes; 10_state.md section 10): it leaves
`MODE`, the parameters and the command stream alone; below `cnt == 7` also the checkpoint and the output
stream; and what it emits is one byte at most. -/
def Obligations.SampleFrame : Prop :=
  ∀ (x : SampleBits) (s : State), ∃ t, exec (.sample x) s = .next t ∧
    t.mode = s.mode ∧ t.config = s.config ∧ t.input = s.input ∧ t.draws = s.draws ∧
    (s.cnt ≠ 7 → t.k = s.k ∧ t.output = s.output ∧ t.emitted = s.emitted) ∧
    (t.output = s.output ∨ ∃ b, t.output = s.output ++ [b] ∧ t.emitted = some b)

/-- 41_bit_packer.md R74: after a session's `START m` and any samples, `K` is the CodecState at the end of
the last sample whose decision reached an emitted byte (fresh if there is none), while `W` is the one
after all of them; and one `SAMPLE` writes `K` only at `cnt == 7`, with its own new `W`. -/
def Obligations.CheckpointIsLastByteBoundary : Prop :=
  (∀ (m : Mode) (s : State) (xs : List SampleBits),
    let fresh : CodecState := ⟨s.config.initLevel, s.config.initResponse.setWidth 10, s.config.initLastBit⟩
    ∃ t, runCommands (.start m :: xs.map .sample) s = .next t ∧
      t.w = codecFold m fresh xs ∧ t.k = codecFold m fresh (xs.take (8 * (xs.length / 8)))) ∧
  (∀ (x : SampleBits) (s : State), ∃ t, exec (.sample x) s = .next t ∧
    t.k = if s.cnt = 7 then t.w else s.k)

/-- 41_bit_packer.md section 1, derived by the spec: eight samples from `cnt == 0`, whatever `acc` held,
emit exactly one byte, and its bit `i` is the decision of sample `i`: the first in bit 0. -/
def Obligations.EightDecisionsMakeByte : Prop :=
  ∀ (s : State) (xs : List SampleBits), s.cnt = 0 → xs.length = 8 →
    ∃ t b, runCommands (xs.map .sample) s = .next t ∧ t.output = s.output ++ [b] ∧ t.cnt = 0 ∧
      ∀ i < 8, ∃ u, runCommands ((xs.take (i + 1)).map .sample) s = .next u ∧
        b.getLsbD i = u.w.lastBit

/-- 41_bit_packer.md section 3, derived by the spec and stated from any `cnt`: among `SAMPLE` and `NOP`
commands only the samples count; every eighth emits one byte and the counter is their number modulo 8. -/
def Obligations.SamplesCountModuloEight : Prop :=
  ∀ (s : State) (is : List Instr), (∀ i ∈ is, i = .nop ∨ ∃ x, i = .sample x) →
    ∃ t, runCommands is s = .next t ∧
      t.output.length = s.output.length + (s.cnt.toNat + is.countP (· ≠ .nop)) / 8 ∧
      t.cnt.toNat = (s.cnt.toNat + is.countP (· ≠ .nop)) % 8

/-! ### Buffers and sessions -/

/-- 42_session_buffer.md section 2, `encodeBuffer`: from a byte boundary, the machine run on a buffer's
samples and `END` emits exactly the bytes of the function, which knows no packer, counter or checkpoint,
and leaves its CodecState in `W` and `K`, in both modes and both configurations. -/
def Obligations.BufferRefinesEncodeBuffer : Prop :=
  ∀ (s : State) (xs : List SampleBits), s.cnt = 0 → s.k = s.w →
    let spec := encodeBuffer s.config.remainderCommits s.mode s.w xs
    ∃ t, runCommands (bufferCommands xs) s = .next t ∧
      t.output = s.output ++ spec.1 ∧ t.registers = ⟨s.mode, spec.2, 0, 0, spec.2⟩

/-- The length law, 42_session_buffer.md section 2: for any `L`, from a byte boundary, a buffer of `L`
samples yields `floor(L/8)` bytes, none when `L < 8`, whatever the samples, the mode and the parameters. -/
def Obligations.BufferLengthLaw : Prop :=
  ∀ (s : State) (xs : List SampleBits), s.cnt = 0 →
    ∃ t out, runCommands (bufferCommands xs) s = .next t ∧ t.output = s.output ++ out ∧
      out.length = xs.length / 8 ∧ (xs.length < 8 → out = [])

/-- 42_session_buffer.md R85: the remainder's samples are dropped. From a byte boundary a buffer gives the
same bytes as its whole groups of eight alone, in both configurations, and leaves nothing in the packer for
the next buffer; in the default configuration the registers are the same too, as if the remainder had
never been sent; with `REMAINDER_COMMITS` the samples keep their effect on `W`. -/
def Obligations.RemainderIsDropped : Prop :=
  ∀ (s : State) (xs : List SampleBits), s.cnt = 0 → s.k = s.w →
    ∃ t u, runCommands (bufferCommands xs) s = .next t ∧
      runCommands (bufferCommands (xs.take (8 * (xs.length / 8)))) s = .next u ∧
      t.output = u.output ∧ t.acc = 0 ∧ t.cnt = 0 ∧
      (s.config.remainderCommits = false → t.registers = u.registers) ∧
      (s.config.remainderCommits = true → t.w = codecFold s.mode s.w xs ∧ t.k = t.w)

/-- 42_session_buffer.md R86: when the first buffer's length is a multiple of 8, the two buffers one after
the other, with or without the `END` between them, leave the very state that their concatenation leaves;
while a fresh state for the second buffer gives other bytes for some inputs and not for others. -/
def Obligations.BuffersContinueSession : Prop :=
  (∀ (s : State) (xs ys : List SampleBits), s.cnt = 0 → s.k = s.w → 8 ∣ xs.length →
    ∃ t, runCommands (bufferCommands (xs ++ ys)) s = .next t ∧
      runCommands (bufferCommands xs ++ bufferCommands ys) s = .next t ∧
      runCommands (xs.map .sample ++ bufferCommands ys) s = .next t) ∧
  (∃ (xs ys : List SampleBits) (t u : State), 8 ∣ xs.length ∧
    runCommands (bufferCommands xs ++ bufferCommands ys) State.reset = .next t ∧
    runCommands (bufferCommands xs ++ .start .current :: bufferCommands ys) State.reset = .next u ∧
    t.output ≠ u.output) ∧
  (∃ (xs ys : List SampleBits) (t u : State), xs ≠ [] ∧ ys ≠ [] ∧ 8 ∣ xs.length ∧
    runCommands (bufferCommands xs ++ bufferCommands ys) State.reset = .next t ∧
    runCommands (bufferCommands xs ++ .start .current :: bufferCommands ys) State.reset = .next u ∧
    t.output = u.output ∧ t.registers ≠ u.registers)

/-- 70_reset_and_hazards.md section 5: a complete run of commands from a state that meets the invariants
ends at a byte boundary: nothing is left in the packer and the checkpoint is the working state. -/
def Obligations.CompleteRunLeavesNothingPending : Prop :=
  ∀ (s : State) (is : List Instr), s.Inv →
    ∃ t, runCommands is s = .next t ∧ (runComplete is t = true → t.cnt = 0 ∧ t.acc = 0 ∧ t.k = t.w)

/-! ### The step and the pins -/

/-- A step runs the decoded instruction (30_encoding.md section 1): when the edge the host presents
carries a command word that decodes to `i`, the step is `exec i` on the state with that edge consumed, the
output strobe cleared and one free value drawn. A word given by its opcode-table number is presented by
`withFetchWord`. -/
def Obligations.StepPerformsDecodedCommand : Prop :=
  (∀ (s : State) (w : CommandWord) (es : List Edge) (i : Instr),
    s.input = ⟨false, true, w⟩ :: es → decode w = some i →
    step s = exec i { s with input := es, emitted := none, draws := s.draws + 1 }) ∧
  (∀ (s : State) (w : Nat) (i : Instr), w < 1024 → decodeTableWord 16 w = some i →
    step (s.withFetchWord 16 w) = exec i { s with emitted := none, draws := s.draws + 1 })

/-- 70_reset_and_hazards.md R104, R105 and 60_exceptions.md R97: at an edge with `rst = 1`, whatever is on
`cmd_valid` and `cmd` and at any `cnt`, the step performs exactly the writes of `START RESET_MODE`, emits
nothing, and the bytes already emitted stay. -/
def Obligations.ResetHasPriorityAndStartsSession : Prop :=
  ∀ (s : State) (valid : Bool) (w : CommandWord) (es : List Edge), s.input = ⟨true, valid, w⟩ :: es →
    let fresh : CodecState := ⟨s.config.initLevel, s.config.initResponse.setWidth 10, s.config.initLastBit⟩
    let begun : State := { s with input := es, emitted := none, draws := s.draws + 1 }
    step s = .next { begun with
      mode := s.config.resetMode, w := fresh, k := fresh, acc := 0, cnt := 0 } ∧
    step s = exec (.start s.config.resetMode) begun

/-- 30_encoding.md R45: `NOP` is every word with `op = 00`, its data bits without effect, canonical
`0x000`; and a step in which the host presents no command, whatever is on `cmd`, leaves the registers and
the output stream as they were and emits nothing. The clause for an empty command stream (`s.input = []`)
is the model's own reading (DEDUCED, log entry 1): the stream is the model's field, and an empty one stands
for a host that sends nothing, of which 60_exceptions.md R102 says that "when the host sends nothing the
block performs `NOP` and keeps all its state". -/
def Obligations.IdleStepIsNop : Prop :=
  (∀ data : BitVec 8, decode (0b00#2 ++ data) = some .nop) ∧
  (∀ w : CommandWord, decode w = some .nop → w.extractLsb' 8 2 = 0b00#2) ∧
  encode .nop = 0x000 ∧
  (∀ (s : State) (w : CommandWord) (es : List Edge),
    s.input = ⟨false, false, w⟩ :: es ∨ s.input = [] ∧ es = [] →
    step s = .next { s with input := es, emitted := none, draws := s.draws + 1 })

/-- 30_encoding.md R48, 60_exceptions.md R94: a step is refused exactly when the host presents one of the
reserved words (without reset), always with the same reason, and the refusal is that of every run that
goes on from there. There are 509 reserved words. -/
def Obligations.ReservedWordsRefuseRun : Prop :=
  (∀ (s : State) (r : Refusal), step s = .refused r ↔
    r = .reservedEncoding ∧ s.presentedEdge.rst = false ∧ s.presentedEdge.cmdValid = true ∧
    ((0x102 ≤ s.presentedEdge.cmd.toNat ∧ s.presentedEdge.cmd.toNat ≤ 0x1FF) ∨
      (0x301 ≤ s.presentedEdge.cmd.toNat ∧ s.presentedEdge.cmd.toNat ≤ 0x3FF))) ∧
  (∀ (s : State) (es fs : List Edge) (r : Refusal),
    runEdges es s = .refused r → runEdges (es ++ fs) s = .refused r) ∧
  ((List.range 1024).countP (fun n => (decode (BitVec.ofNat 10 n)).isNone) = 509)

/-- 60_exceptions.md R91: every command is total: for every state and operand exactly one next state, with
at most one emitted byte; a step answers a next state or the refusal of a reserved word, and no fault. -/
def Obligations.CommandsTotalStepNeverFaults : Prop :=
  (∀ (i : Instr) (s : State), ∃ t, exec i s = .next t ∧
    (t.output = s.output ∨ ∃ b, t.output = s.output ++ [b])) ∧
  (∀ s : State, (∃ t, step s = .next t) ∨ step s = .refused .reservedEncoding) ∧
  (∀ (s : State) (r : Fault), step s ≠ .fault r)

/-- 70_reset_and_hazards.md section 6, the host's duty: a run in which the host never sends a reserved word
is performed to its end, whatever the state it starts in. -/
def Obligations.AllowedRunsReachTheirEnd : Prop :=
  ∀ (es : List Edge) (s : State), (∀ e ∈ es, e.allowed = true) →
    ∃ t, runEdges es s = .next t ∧ t.input = []

/-- 20_memory.md sections 1 and 8: a step adds to the output stream the byte the pins show and nothing
else; `out_valid` is 1 exactly when the command is a `SAMPLE` performed at `cnt == 7`, and `out_byte` is
then the byte added. What `out_byte` shows otherwise is a free value, of which nothing is said. -/
def Obligations.OnlyEighthSampleEmits : Prop :=
  ∀ s t : State, step s = .next t →
    t.output = s.output ++ t.emitted.toList ∧
    (t.outValid = true ↔ (∃ x, s.presentedEdge.action = .perform (.sample x)) ∧ s.cnt.toNat = 7) ∧
    (t.outValid = true → t.output = s.output ++ [t.outByte])

/-- 10_state.md sections 2 and 4, 42_session_buffer.md section 3: the parameters are never written; only
`START` and reset write `MODE`, with their own value; and, in a state that meets the invariants, only
they, `SAMPLE`, and `END` inside a group in the default configuration change the CodecState. -/
def Obligations.OnlyStartAndResetWriteMode : Prop :=
  ∀ s t : State, step s = .next t →
    t.config = s.config ∧
    (t.mode ≠ s.mode →
      (s.presentedEdge.action = .reset ∧ t.mode = s.config.resetMode) ∨
      ∃ m, s.presentedEdge.action = .perform (.start m) ∧ t.mode = m) ∧
    (s.Inv → t.w ≠ s.w →
      s.presentedEdge.action = .reset ∨
      (∃ m, s.presentedEdge.action = .perform (.start m)) ∨
      (∃ x, s.presentedEdge.action = .perform (.sample x)) ∨
      (s.presentedEdge.action = .perform .endBuffer ∧ s.cnt ≠ 0 ∧ s.config.remainderCommits = false))

/-- 70_reset_and_hazards.md section 3 (a host may stop at any step): the bytes emitted by a run are a
prefix of the bytes of every run that goes on from it. -/
def Obligations.EmittedBytesStayEmitted : Prop :=
  ∀ (es fs : List Edge) (s t : State), runEdges (es ++ fs) s = .next t →
    ∃ u, runEdges es s = .next u ∧ (∃ out, u.output = s.output ++ out) ∧
      ∃ more, t.output = u.output ++ more

/-! ### Encoding -/

/-- 30_encoding.md section 5: decoding the canonical word of a command gives it back, for every command
and operand; and a word that decodes to a command other than `NOP` is that command's canonical word, so no
bit of it is dropped. -/
def Obligations.DecodeInvertsEncode : Prop :=
  (∀ i : Instr, decode (encode i) = some i) ∧
  (∀ (w : CommandWord) (i : Instr), decode w = some i → i ≠ .nop → encode i = w) ∧
  (∀ i j : Instr, encode i = encode j → i = j)

/-- 30_encoding.md R44: the four rows; a word selects at most one of them; it decodes to a command exactly when
it selects one, which is then the command's; and the rows cover 256, 2, 256 and 1 words. -/
def Obligations.OpcodeRowsDisjoint : Prop :=
  opcodeRows.map (fun r => (r.mnemonic, r.pattern, r.mask)) =
    [("NOP", 0x000, 0x300), ("START", 0x100, 0x3FE), ("SAMPLE", 0x200, 0x300), ("END", 0x300, 0x3FF)] ∧
  (∀ (r : OpcodeRow) (w : CommandWord), r.selects w = true ↔ w &&& r.mask = r.pattern) ∧
  (∀ w : CommandWord, (opcodeRows.filter (fun r => r.selects w)).length ≤ 1) ∧
  (∀ w : CommandWord, (decode w).map Instr.mnemonic =
    ((opcodeRows.filter (fun r => r.selects w)).map OpcodeRow.mnemonic).head?) ∧
  opcodeRows.map (fun r => (r.mnemonic,
    (List.range 1024).countP (fun n => r.selects (BitVec.ofNat 10 n)))) =
    [("NOP", 256), ("START", 2), ("SAMPLE", 256), ("END", 1)]

/-- 30_encoding.md R46, R47: the words of `START`, `SAMPLE` and `END`; a sample's operand is the low 8 bits
of its word, read as a two's-complement number. -/
def Obligations.StartSampleEndWords : Prop :=
  (∀ w : CommandWord, (∃ m, decode w = some (.start m)) ↔ (w = 0x100 ∨ w = 0x101)) ∧
  decode 0x100 = some (.start .current) ∧ decode 0x101 = some (.start .legacy) ∧
  (∀ w : CommandWord, (∃ x, decode w = some (.sample x)) ↔ w.extractLsb' 8 2 = 0b10#2) ∧
  (∀ (w : CommandWord) (x : SampleBits), decode w = some (.sample x) ↔ w.toNat = 0x200 + x.toNat) ∧
  (∀ (w : CommandWord) (x : SampleBits), decode w = some (.sample x) →
    (w.toNat ≤ 0x27F ↔ 0 ≤ x.toInt) ∧
    x.toInt = if w.toNat ≤ 0x27F then (w.toNat : Int) - 0x200 else (w.toNat : Int) - 0x300) ∧
  (∀ w : CommandWord, decode w = some .endBuffer ↔ w = 0x300)

/-- A sanity check on a few words of 95_test_vectors.md section 5. -/
def Obligations.SomeWordsDecode : Prop :=
  decode 0x0FF = some .nop ∧ decode 0x101 = some (.start .legacy) ∧ decode 0x102 = none ∧
  decode 0x29C = some (.sample (BitVec.ofInt 8 (-100))) ∧ decode 0x300 = some .endBuffer ∧
  decode 0x301 = none

/-- 30_encoding.md section 6: the expansions of the pseudo-commands, when their samples are in range. -/
def Obligations.PseudoCommandsExpand : Prop :=
  (∀ ns : List Int, (∀ n ∈ ns, -128 ≤ n ∧ n ≤ 127) →
    TextLine.expand (.buffer ns) = some (bufferCommands (ns.map (BitVec.ofInt 8))) ∧
    ∀ n ∈ ns, (BitVec.ofInt 8 n).toInt = n) ∧
  (∀ m, TextLine.expand (.session m) = some [.start m]) ∧
  (∀ k, TextLine.expand (.idle k) = some (List.replicate k .nop)) ∧
  (∀ n : Int, -128 ≤ n ∧ n ≤ 127 → TextLine.expand (.sample n) = some [.sample (BitVec.ofInt 8 n)])

/-- 60_exceptions.md R93: a sample outside [-128, 127] can be written only in the text, and there it is
refused at the boundary, alone or in a buffer; no command of the block has an operand outside the range.
That one refused line refuses the whole text (`assemble ls = none`) is the model's choice (DESIGN CHOICE,
log entry 8) and no rule of the spec. -/
def Obligations.OutOfRangeSampleRefused : Prop :=
  (∀ n : Int, n < -128 ∨ 127 < n → TextLine.expand (.sample n) = none) ∧
  (∀ (ns : List Int) (n : Int), n ∈ ns → n < -128 ∨ 127 < n → TextLine.expand (.buffer ns) = none) ∧
  (∀ (ls : List TextLine) (l : TextLine), l ∈ ls → l.expand = none → assemble ls = none) ∧
  (∀ x : SampleBits, -128 ≤ sampleValue x ∧ sampleValue x ≤ 127)

/-! ### Invariants -/

/-- The reset state meets the invariants of 10_state.md section 7. -/
def Obligations.ResetMeetsInvariant : Prop := State.reset.Inv

/-- The invariants of 10_state.md section 7 are kept by every step, from every state that meets them, with
every parameter setting: the response within the mode's ceiling and, in `current` mode, at its floor or
fresh, in `W` and in `K`; at a byte boundary `K == W`; the unused low bits of `acc` zero. -/
def Obligations.StepKeepsInvariant : Prop :=
  ∀ s t : State, s.Inv → step s = .next t → t.Inv

/-! ### What cannot be seen, and what does not interfere -/

/-- 20_memory.md section 8 and 70_reset_and_hazards.md section 3: idle steps (no command, or a `NOP` word)
anywhere in a run change neither the bytes nor the registers, nor whether the run is refused: taking all
of them out gives the same result. -/
def Obligations.IdleStepsAreInvisible : Prop :=
  ∀ (es : List Edge) (s : State),
    outcomeResult (runEdges es s) = outcomeResult (runEdges (es.filter (fun e => !e.isIdle)) s)

/-- 42_session_buffer.md R87: from `START m` on, the bytes emitted and the final registers are a function
of the mode and the commands alone: two copies of the block with the same parameters, whatever their
registers and their history, that are sent the same commands with idle steps put in differently, emit the
same bytes and end with the same registers. -/
def Obligations.SessionIsDeterministic : Prop :=
  ∀ (m : Mode) (es fs : List Edge) (s u s' : State), s.config = u.config →
    es.filter (fun e => !e.isIdle) = fs.filter (fun e => !e.isIdle) →
    runEdges (Edge.ofInstr (.start m) :: es) s = .next s' →
    ∃ u' out, runEdges (Edge.ofInstr (.start m) :: fs) u = .next u' ∧
      s'.output = s.output ++ out ∧ u'.output = u.output ++ out ∧ u'.registers = s'.registers

/-- 41_bit_packer.md section 2, derived by the spec: the value of `acc` at a byte boundary can be seen in no
output byte of any run. -/
def Obligations.BoundaryAccIsInvisible : Prop :=
  ∀ (es : List Edge) (s : State) (a : Byte), s.cnt = 0 →
    outcomeOutput (runEdges es { s with acc := a }) = outcomeOutput (runEdges es s)

/-- 10_state.md section 6, derived by the spec: with `REMAINDER_COMMITS` the checkpoint has no observable
effect: no run's bytes depend on it. -/
def Obligations.CheckpointIsInvisibleWhenCommitting : Prop :=
  ∀ (es : List Edge) (s : State) (k : CodecState), s.config.remainderCommits = true →
    outcomeOutput (runEdges es { s with k := k }) = outcomeOutput (runEdges es s)

/-- `lastBit` is read only by the response adaptation (10_state.md section 2), which `current` mode does not
do (40_quantizer.md section 4): in `current` mode its value, in `W` and in `K`, can be seen in no output
byte of any run. -/
def Obligations.LastBitIsInvisibleInCurrentMode : Prop :=
  ∀ (es : List Edge) (s : State) (b c : Bool), s.mode = .current →
    outcomeOutput (runEdges es { s with w := { s.w with lastBit := b }, k := { s.k with lastBit := c } }) =
      outcomeOutput (runEdges es s)

/-- 10_state.md section 9 and 20_memory.md section 1: the output stream is never read by the block: runs
from states that differ only in what was emitted before (and in the model's counter of free values) emit
the same bytes after it and end with the same registers. -/
def Obligations.OutputHistoryIsNeverRead : Prop :=
  ∀ (es : List Edge) (s t : State) (o : List Byte) (e : Option Byte) (d : Nat), runEdges es s = .next t →
    ∃ t' out, runEdges es { s with output := o, emitted := e, draws := d } = .next t' ∧
      t.output = s.output ++ out ∧ t'.output = o ++ out ∧ t'.registers = t.registers

/-- 60_exceptions.md R101: copies of the block share nothing: a step of one copy is the step of its own
state, and every other copy is left as it was. Of a copy that refuses its word nothing is said: that the
joint step is then refused is the model's choice (DESIGN CHOICE, log entry 10). -/
def Obligations.CopiesShareNothing : Prop :=
  ∀ (n : Nat) (bs bs' : List State), stepCopy n bs = some (.next bs') →
    (∃ s t, bs[n]? = some s ∧ step s = .next t ∧ bs'[n]? = some t) ∧
    (∀ j, j ≠ n → bs'[j]? = bs[j]?) ∧
    (∀ cs : List State, cs[n]? = bs[n]? →
      ∃ cs', stepCopy n cs = some (.next cs') ∧ cs'[n]? = bs'[n]?)
end

