-- ==== Sys2Proof/Laws/State.lean ====
section
/-! SUPPORT. One lemma per field of `State` for each named update (true by rfl), so that no later proof
unfolds a record update. -/

namespace Sys2Proof.Machine

@[simp] theorem emit_config (b : Byte) (s : State) : (emit b s).config = s.config := rfl
@[simp] theorem emit_mode (b : Byte) (s : State) : (emit b s).mode = s.mode := rfl
@[simp] theorem emit_w (b : Byte) (s : State) : (emit b s).w = s.w := rfl
@[simp] theorem emit_acc (b : Byte) (s : State) : (emit b s).acc = s.acc := rfl
@[simp] theorem emit_cnt (b : Byte) (s : State) : (emit b s).cnt = s.cnt := rfl
@[simp] theorem emit_k (b : Byte) (s : State) : (emit b s).k = s.k := rfl
@[simp] theorem emit_input (b : Byte) (s : State) : (emit b s).input = s.input := rfl
@[simp] theorem emit_output (b : Byte) (s : State) : (emit b s).output = s.output ++ [b] := rfl
@[simp] theorem emit_emitted (b : Byte) (s : State) : (emit b s).emitted = some b := rfl
@[simp] theorem emit_draws (b : Byte) (s : State) : (emit b s).draws = s.draws := rfl

@[simp] theorem clearPacker_config (s : State) : (clearPacker s).config = s.config := rfl
@[simp] theorem clearPacker_mode (s : State) : (clearPacker s).mode = s.mode := rfl
@[simp] theorem clearPacker_w (s : State) : (clearPacker s).w = s.w := rfl
@[simp] theorem clearPacker_acc (s : State) : (clearPacker s).acc = 0 := rfl
@[simp] theorem clearPacker_cnt (s : State) : (clearPacker s).cnt = 0 := rfl
@[simp] theorem clearPacker_k (s : State) : (clearPacker s).k = s.k := rfl
@[simp] theorem clearPacker_input (s : State) : (clearPacker s).input = s.input := rfl
@[simp] theorem clearPacker_output (s : State) : (clearPacker s).output = s.output := rfl
@[simp] theorem clearPacker_emitted (s : State) : (clearPacker s).emitted = s.emitted := rfl
@[simp] theorem clearPacker_draws (s : State) : (clearPacker s).draws = s.draws := rfl

@[simp] theorem takeCheckpoint_config (s : State) : (takeCheckpoint s).config = s.config := rfl
@[simp] theorem takeCheckpoint_mode (s : State) : (takeCheckpoint s).mode = s.mode := rfl
@[simp] theorem takeCheckpoint_w (s : State) : (takeCheckpoint s).w = s.w := rfl
@[simp] theorem takeCheckpoint_acc (s : State) : (takeCheckpoint s).acc = s.acc := rfl
@[simp] theorem takeCheckpoint_cnt (s : State) : (takeCheckpoint s).cnt = s.cnt := rfl
@[simp] theorem takeCheckpoint_k (s : State) : (takeCheckpoint s).k = s.w := rfl
@[simp] theorem takeCheckpoint_input (s : State) : (takeCheckpoint s).input = s.input := rfl
@[simp] theorem takeCheckpoint_output (s : State) : (takeCheckpoint s).output = s.output := rfl
@[simp] theorem takeCheckpoint_emitted (s : State) : (takeCheckpoint s).emitted = s.emitted := rfl
@[simp] theorem takeCheckpoint_draws (s : State) : (takeCheckpoint s).draws = s.draws := rfl

@[simp] theorem rollBack_config (s : State) : (rollBack s).config = s.config := rfl
@[simp] theorem rollBack_mode (s : State) : (rollBack s).mode = s.mode := rfl
@[simp] theorem rollBack_w (s : State) : (rollBack s).w = s.k := rfl
@[simp] theorem rollBack_acc (s : State) : (rollBack s).acc = s.acc := rfl
@[simp] theorem rollBack_cnt (s : State) : (rollBack s).cnt = s.cnt := rfl
@[simp] theorem rollBack_k (s : State) : (rollBack s).k = s.k := rfl
@[simp] theorem rollBack_input (s : State) : (rollBack s).input = s.input := rfl
@[simp] theorem rollBack_output (s : State) : (rollBack s).output = s.output := rfl
@[simp] theorem rollBack_emitted (s : State) : (rollBack s).emitted = s.emitted := rfl
@[simp] theorem rollBack_draws (s : State) : (rollBack s).draws = s.draws := rfl

@[simp] theorem constructSession_config (m : Mode) (s : State) : (constructSession m s).config = s.config := rfl
@[simp] theorem constructSession_mode (m : Mode) (s : State) : (constructSession m s).mode = m := rfl
@[simp] theorem constructSession_w (m : Mode) (s : State) : (constructSession m s).w = freshCodec s.config := rfl
@[simp] theorem constructSession_acc (m : Mode) (s : State) : (constructSession m s).acc = 0 := rfl
@[simp] theorem constructSession_cnt (m : Mode) (s : State) : (constructSession m s).cnt = 0 := rfl
@[simp] theorem constructSession_k (m : Mode) (s : State) : (constructSession m s).k = freshCodec s.config := rfl
@[simp] theorem constructSession_input (m : Mode) (s : State) : (constructSession m s).input = s.input := rfl
@[simp] theorem constructSession_output (m : Mode) (s : State) : (constructSession m s).output = s.output := rfl
@[simp] theorem constructSession_emitted (m : Mode) (s : State) : (constructSession m s).emitted = s.emitted := rfl
@[simp] theorem constructSession_draws (m : Mode) (s : State) : (constructSession m s).draws = s.draws := rfl

@[simp] theorem hardwareReset_config (s : State) : (hardwareReset s).config = s.config := rfl
@[simp] theorem hardwareReset_mode (s : State) : (hardwareReset s).mode = s.config.resetMode := rfl
@[simp] theorem hardwareReset_w (s : State) : (hardwareReset s).w = freshCodec s.config := rfl
@[simp] theorem hardwareReset_acc (s : State) : (hardwareReset s).acc = 0 := rfl
@[simp] theorem hardwareReset_cnt (s : State) : (hardwareReset s).cnt = 0 := rfl
@[simp] theorem hardwareReset_k (s : State) : (hardwareReset s).k = freshCodec s.config := rfl
@[simp] theorem hardwareReset_input (s : State) : (hardwareReset s).input = s.input := rfl
@[simp] theorem hardwareReset_output (s : State) : (hardwareReset s).output = s.output := rfl
@[simp] theorem hardwareReset_emitted (s : State) : (hardwareReset s).emitted = s.emitted := rfl
@[simp] theorem hardwareReset_draws (s : State) : (hardwareReset s).draws = s.draws := rfl

@[simp] theorem State.beginStep_config (s : State) : (s.beginStep).config = s.config := rfl
@[simp] theorem State.beginStep_mode (s : State) : (s.beginStep).mode = s.mode := rfl
@[simp] theorem State.beginStep_w (s : State) : (s.beginStep).w = s.w := rfl
@[simp] theorem State.beginStep_acc (s : State) : (s.beginStep).acc = s.acc := rfl
@[simp] theorem State.beginStep_cnt (s : State) : (s.beginStep).cnt = s.cnt := rfl
@[simp] theorem State.beginStep_k (s : State) : (s.beginStep).k = s.k := rfl
@[simp] theorem State.beginStep_input (s : State) : (s.beginStep).input = s.input.tail := rfl
@[simp] theorem State.beginStep_output (s : State) : (s.beginStep).output = s.output := rfl
@[simp] theorem State.beginStep_emitted (s : State) : (s.beginStep).emitted = none := rfl
@[simp] theorem State.beginStep_draws (s : State) : (s.beginStep).draws = s.draws + 1 := rfl

@[simp] theorem State.withInput_config (s : State) (es : List Edge) : (s.withInput es).config = s.config := rfl
@[simp] theorem State.withInput_mode (s : State) (es : List Edge) : (s.withInput es).mode = s.mode := rfl
@[simp] theorem State.withInput_w (s : State) (es : List Edge) : (s.withInput es).w = s.w := rfl
@[simp] theorem State.withInput_acc (s : State) (es : List Edge) : (s.withInput es).acc = s.acc := rfl
@[simp] theorem State.withInput_cnt (s : State) (es : List Edge) : (s.withInput es).cnt = s.cnt := rfl
@[simp] theorem State.withInput_k (s : State) (es : List Edge) : (s.withInput es).k = s.k := rfl
@[simp] theorem State.withInput_input (s : State) (es : List Edge) : (s.withInput es).input = es := rfl
@[simp] theorem State.withInput_output (s : State) (es : List Edge) : (s.withInput es).output = s.output := rfl
@[simp] theorem State.withInput_emitted (s : State) (es : List Edge) : (s.withInput es).emitted = s.emitted := rfl
@[simp] theorem State.withInput_draws (s : State) (es : List Edge) : (s.withInput es).draws = s.draws := rfl

@[simp] theorem State.registers_mode (s : State) : s.registers.mode = s.mode := rfl
@[simp] theorem State.registers_w (s : State) : s.registers.w = s.w := rfl
@[simp] theorem State.registers_acc (s : State) : s.registers.acc = s.acc := rfl
@[simp] theorem State.registers_cnt (s : State) : s.registers.cnt = s.cnt := rfl
@[simp] theorem State.registers_k (s : State) : s.registers.k = s.k := rfl

@[simp] theorem State.beginStep_registers (s : State) : s.beginStep.registers = s.registers := rfl
@[simp] theorem State.withInput_registers (s : State) (es : List Edge) :
    (s.withInput es).registers = s.registers := rfl
@[simp] theorem State.withInput_self (s : State) : s.withInput s.input = s := rfl
@[simp] theorem State.withInput_withInput (s : State) (es fs : List Edge) :
    (s.withInput es).withInput fs = s.withInput fs := rfl

/-- Two states are equal when all their fields are. -/
theorem State.eq_of_fields {s t : State} (h0 : s.config = t.config) (h1 : s.registers = t.registers)
    (h2 : s.input = t.input) (h3 : s.output = t.output) (h4 : s.emitted = t.emitted)
    (h5 : s.draws = t.draws) : s = t := by
  cases s; cases t; simp_all [State.registers]

end Sys2Proof.Machine
end

