-- ==== Sys2Proof/Laws/Ops.lean ====
section
/-! SUPPORT. One lemma for each shared operation that says everything it does: the shift, the
narrowings, the packer, the four meanings, the pins and the step. -/

namespace Sys2Proof.Machine

/-! ### Arithmetic -/

/-- `asr(v, n)` is the greatest integer not above `v / 2^n` (00_scope.md R9). -/
theorem asr_eq_iff (v q : Int) (n : Nat) :
    asr v n = q ↔ q * 2 ^ n ≤ v ∧ v < (q + 1) * 2 ^ n := by
  have hp : (0 : Int) < 2 ^ n := by positivity
  unfold asr
  constructor
  · rintro rfl
    exact ⟨Int.ediv_mul_le v hp.ne', Int.lt_ediv_add_one_mul_self v hp⟩
  · rintro ⟨h1, h2⟩
    have h3 : q ≤ v / 2 ^ n := (Int.le_ediv_iff_mul_le hp).2 h1
    have h4 : v / 2 ^ n < q + 1 := (Int.ediv_lt_iff_lt_mul hp).2 h2
    omega

theorem asr_nonneg {v : Int} (h : 0 ≤ v) (n : Nat) : 0 ≤ asr v n :=
  Int.ediv_nonneg h (by positivity)

/-- The shift is below `q + 1` exactly when the operand is below `(q + 1) * 2^n`. -/
theorem asr_le_iff (v q : Int) (n : Nat) : asr v n ≤ q ↔ v < (q + 1) * 2 ^ n := by
  rw [← Int.lt_add_one_iff, asr, Int.ediv_lt_iff_lt_mul (by positivity)]

theorem le_asr_iff (v q : Int) (n : Nat) : q ≤ asr v n ↔ q * 2 ^ n ≤ v := by
  rw [asr, Int.le_ediv_iff_mul_le (by positivity)]

/-- A level in range is stored exactly (40_quantizer.md R67). -/
theorem narrowLevel_toInt {n : Int} (h1 : -128 ≤ n) (h2 : n ≤ 127) : (narrowLevel n).toInt = n := by
  rw [narrowLevel, if_pos ⟨h1, h2⟩, BitVec.toInt_ofInt, Int.bmod_def]
  omega

/-- A response in range is stored exactly (40_quantizer.md R67). -/
theorem narrowResponse_toNat {n : Int} (h1 : 0 ≤ n) (h2 : n ≤ 1023) :
    ((narrowResponse n).toNat : Int) = n := by
  rw [narrowResponse, BitVec.toNat_ofInt]
  omega

theorem level_toInt_range (l : Level) : -128 ≤ l.toInt ∧ l.toInt ≤ 127 := by
  have h1 := l.le_toInt
  have h2 := l.toInt_lt
  constructor <;> omega

theorem sampleValue_range (x : SampleBits) : -128 ≤ sampleValue x ∧ sampleValue x ≤ 127 :=
  level_toInt_range x

theorem response_toNat_range (r : Response) : 0 ≤ (r.toNat : Int) ∧ (r.toNat : Int) ≤ 1023 := by
  have := r.isLt
  omega

/-! ### The packer -/

/-- `pack(acc, bit) = floor(acc / 2) + (bit ? 128 : 0)` (41_bit_packer.md R71). -/
theorem pack_toNat (acc : Byte) (bit : Bool) :
    (pack acc bit).toNat = acc.toNat / 2 + (if bit then 128 else 0) := by
  revert acc bit; decide

/-- A packed bit stands in bit 7 and the older ones have moved one place down (41_bit_packer.md R71). -/
theorem pack_getLsbD (acc : Byte) (bit : Bool) (i : Nat) :
    (pack acc bit).getLsbD i = if i = 7 then bit else if i < 7 then acc.getLsbD (i + 1) else false := by
  have key : ∀ (acc : Byte) (bit : Bool) (j : Fin 8),
      (pack acc bit).getLsbD j = if j = 7 then bit else if j < 7 then acc.getLsbD (j + 1) else false := by
    decide
  by_cases h : i < 8
  · have := key acc bit ⟨i, h⟩
    simpa [Fin.ext_iff, Fin.lt_def] using this
  · rw [BitVec.getLsbD_of_ge _ _ (by omega), if_neg (by omega), if_neg (by omega)]

/-- The packer's half of `SAMPLE` on the eighth sample (41_bit_packer.md R73, R74). -/
theorem packAndCount_last {s : State} (h : s.cnt = 7) (bit : Bool) :
    packAndCount bit s = clearPacker (takeCheckpoint (emit (pack s.acc bit) s)) := by
  simp [packAndCount, h]

/-- The packer's half of `SAMPLE` on an earlier sample (41_bit_packer.md R73). -/
theorem packAndCount_inside {s : State} (h : s.cnt ≠ 7) (bit : Bool) :
    packAndCount bit s = { s with acc := pack s.acc bit, cnt := s.cnt + 1 } := by
  rw [packAndCount, if_neg h]

/-- Below 7 the counter does not wrap. -/
theorem cnt_add_one_toNat {c : BitVec 3} (h : c ≠ 7) : (c + 1).toNat = c.toNat + 1 := by
  revert c; decide

theorem cnt_toNat_eq_seven {c : BitVec 3} : c.toNat = 7 ↔ c = 7 := by
  revert c; decide

theorem cnt_toNat_eq_zero {c : BitVec 3} : c.toNat = 0 ↔ c = 0 := by
  revert c; decide

/-! ### The meanings: everything each command does -/

@[simp] theorem exec_nop (s : State) : exec .nop s = .next s := rfl

@[simp] theorem exec_start (m : Mode) (s : State) :
    exec (.start m) s = .next (constructSession m s) := rfl

@[simp] theorem exec_endBuffer (s : State) :
    exec .endBuffer s = .next (clearPacker (settleRemainder s)) := rfl

/-- The state after `SAMPLE x`. -/
def afterSample (x : SampleBits) (s : State) : State :=
  packAndCount (quantize s.mode s.w x).lastBit { s with w := quantize s.mode s.w x }

@[simp] theorem exec_sample (x : SampleBits) (s : State) :
    exec (.sample x) s = .next (afterSample x s) := rfl

/-- Everything `SAMPLE` does at `cnt == 7`: the byte is emitted, `K` is the new `W`, the packer is clear. -/
theorem afterSample_last {s : State} (h : s.cnt = 7) (x : SampleBits) :
    afterSample x s =
      { s with
        w := quantize s.mode s.w x
        k := quantize s.mode s.w x
        acc := 0
        cnt := 0
        output := s.output ++ [pack s.acc (quantize s.mode s.w x).lastBit]
        emitted := some (pack s.acc (quantize s.mode s.w x).lastBit) } := by
  rw [afterSample, packAndCount_last (by exact h)]; rfl

/-- Everything `SAMPLE` does at `cnt < 7`: `W` moves and one bit is packed. -/
theorem afterSample_inside {s : State} (h : s.cnt ≠ 7) (x : SampleBits) :
    afterSample x s =
      { s with
        w := quantize s.mode s.w x
        acc := pack s.acc (quantize s.mode s.w x).lastBit
        cnt := s.cnt + 1 } := by
  rw [afterSample, packAndCount_inside (by exact h)]

@[simp] theorem afterSample_w (x : SampleBits) (s : State) :
    (afterSample x s).w = quantize s.mode s.w x := by
  by_cases h : s.cnt = 7
  · rw [afterSample_last h]
  · rw [afterSample_inside h]

@[simp] theorem afterSample_mode (x : SampleBits) (s : State) : (afterSample x s).mode = s.mode := by
  by_cases h : s.cnt = 7
  · rw [afterSample_last h]
  · rw [afterSample_inside h]

@[simp] theorem afterSample_config (x : SampleBits) (s : State) :
    (afterSample x s).config = s.config := by
  by_cases h : s.cnt = 7
  · rw [afterSample_last h]
  · rw [afterSample_inside h]

@[simp] theorem afterSample_input (x : SampleBits) (s : State) :
    (afterSample x s).input = s.input := by
  by_cases h : s.cnt = 7
  · rw [afterSample_last h]
  · rw [afterSample_inside h]

@[simp] theorem afterSample_draws (x : SampleBits) (s : State) :
    (afterSample x s).draws = s.draws := by
  by_cases h : s.cnt = 7
  · rw [afterSample_last h]
  · rw [afterSample_inside h]

/-- The counter advances by one and wraps from 7 to 0 (10_state.md R14). -/
@[simp] theorem afterSample_cnt (x : SampleBits) (s : State) : (afterSample x s).cnt = s.cnt + 1 := by
  by_cases h : s.cnt = 7
  · rw [afterSample_last h]; simp [h]
  · rw [afterSample_inside h]

theorem afterSample_acc (x : SampleBits) (s : State) :
    (afterSample x s).acc =
      if s.cnt = 7 then 0 else pack s.acc (decideBit (sampleValue x) s.w.level.toInt) := by
  by_cases h : s.cnt = 7
  · rw [afterSample_last h, if_pos h]
  · rw [afterSample_inside h, if_neg h]; rfl

theorem afterSample_k (x : SampleBits) (s : State) :
    (afterSample x s).k = if s.cnt = 7 then quantize s.mode s.w x else s.k := by
  by_cases h : s.cnt = 7
  · rw [afterSample_last h, if_pos h]
  · rw [afterSample_inside h, if_neg h]

theorem afterSample_output (x : SampleBits) (s : State) :
    (afterSample x s).output =
      s.output ++ if s.cnt = 7 then [pack s.acc (decideBit (sampleValue x) s.w.level.toInt)] else [] := by
  by_cases h : s.cnt = 7
  · rw [afterSample_last h, if_pos h]; rfl
  · rw [afterSample_inside h, if_neg h, List.append_nil]

/-- The next decision bit is the flag (40_quantizer.md R64). -/
@[simp] theorem quantize_lastBit (m : Mode) (w : CodecState) (x : SampleBits) :
    (quantize m w x).lastBit = decideBit (sampleValue x) w.level.toInt := rfl

/-- `END` with the remainder committed: `K <- W` (42_session_buffer.md R80). -/
theorem settleRemainder_commits {s : State} (h : s.config.remainderCommits = true) :
    settleRemainder s = takeCheckpoint s := by simp [settleRemainder, h]

/-- `END` in the default configuration: `W <- K` (42_session_buffer.md R80). -/
theorem settleRemainder_drops {s : State} (h : s.config.remainderCommits = false) :
    settleRemainder s = rollBack s := by simp [settleRemainder, h]

@[simp] theorem settleRemainder_config (s : State) : (settleRemainder s).config = s.config := by
  unfold settleRemainder; split <;> rfl

@[simp] theorem settleRemainder_mode (s : State) : (settleRemainder s).mode = s.mode := by
  unfold settleRemainder; split <;> rfl

@[simp] theorem settleRemainder_acc (s : State) : (settleRemainder s).acc = s.acc := by
  unfold settleRemainder; split <;> rfl

@[simp] theorem settleRemainder_cnt (s : State) : (settleRemainder s).cnt = s.cnt := by
  unfold settleRemainder; split <;> rfl

@[simp] theorem settleRemainder_input (s : State) : (settleRemainder s).input = s.input := by
  unfold settleRemainder; split <;> rfl

@[simp] theorem settleRemainder_output (s : State) : (settleRemainder s).output = s.output := by
  unfold settleRemainder; split <;> rfl

@[simp] theorem settleRemainder_emitted (s : State) : (settleRemainder s).emitted = s.emitted := by
  unfold settleRemainder; split <;> rfl

@[simp] theorem settleRemainder_draws (s : State) : (settleRemainder s).draws = s.draws := by
  unfold settleRemainder; split <;> rfl

/-- `W` after `END` (42_session_buffer.md R80). -/
theorem settleRemainder_w (s : State) :
    (settleRemainder s).w = if s.config.remainderCommits then s.w else s.k := by
  unfold settleRemainder; split <;> rfl

/-- `K` after `END`: the same CodecState as `W` (42_session_buffer.md R80). -/
theorem settleRemainder_k (s : State) :
    (settleRemainder s).k = if s.config.remainderCommits then s.w else s.k := by
  unfold settleRemainder; split <;> rfl

/-- The two things `END` can do, in full (42_session_buffer.md R80). -/
theorem afterEnd_cases (s : State) :
    clearPacker (settleRemainder s) =
      if s.config.remainderCommits then { s with k := s.w, acc := 0, cnt := 0 }
      else { s with w := s.k, acc := 0, cnt := 0 } := by
  unfold settleRemainder; split <;> rfl

/-- Every command is total (60_exceptions.md R91): one next state, whatever the state and the operand. -/
def afterInstr (i : Instr) (s : State) : State :=
  match i with
  | .nop => s
  | .start m => constructSession m s
  | .sample x => afterSample x s
  | .endBuffer => clearPacker (settleRemainder s)

theorem exec_eq_next (i : Instr) (s : State) : exec i s = .next (afterInstr i s) := by
  cases i <;> rfl

/-! ### The step -/

/-- What a step can do, guards included: reset, one command, or a refusal. -/
theorem step_cases (s : State) :
    (s.presentedEdge.action = .reset ∧ step s = .next (hardwareReset s.beginStep)) ∨
    (∃ i, s.presentedEdge.action = .perform i ∧ step s = .next (afterInstr i s.beginStep)) ∨
    (s.presentedEdge.action = .reserved ∧ step s = .refused .reservedEncoding) := by
  unfold step
  cases h : s.presentedEdge.action with
  | reset => exact .inl ⟨rfl, rfl⟩
  | perform i => exact .inr (.inl ⟨i, rfl, exec_eq_next i _⟩)
  | reserved => exact .inr (.inr ⟨rfl, rfl⟩)

/-- A step that answers a next state has reset or performed one command. -/
theorem step_next {s t : State} (h : step s = .next t) :
    (s.presentedEdge.action = .reset ∧ t = hardwareReset s.beginStep) ∨
    (∃ i, s.presentedEdge.action = .perform i ∧ t = afterInstr i s.beginStep) := by
  obtain ⟨ha, hs⟩ | ⟨i, ha, hs⟩ | ⟨ha, hs⟩ := step_cases s
  · rw [hs] at h; cases h; exact .inl ⟨ha, rfl⟩
  · rw [hs] at h; cases h; exact .inr ⟨i, ha, rfl⟩
  · rw [hs] at h; cases h

@[simp] theorem presentedEdge_cons (s : State) (e : Edge) (es : List Edge) :
    (s.withInput (e :: es)).presentedEdge = e := rfl

@[simp] theorem presentedEdge_nil (s : State) : (s.withInput []).presentedEdge = Edge.idle := rfl

/-! ### Runs -/

@[simp] theorem runCommands_nil (s : State) : runCommands [] s = .next s := rfl

@[simp] theorem runCommands_cons (i : Instr) (is : List Instr) (s : State) :
    runCommands (i :: is) s = runCommands is (afterInstr i s) := by
  rw [runCommands, exec_eq_next]

/-- Commands end to end: the second list runs from where the first left. -/
theorem runCommands_append (is js : List Instr) (s : State) :
    runCommands (is ++ js) s =
      match runCommands is s with
      | .next t => runCommands js t
      | .fault r => .fault r
      | .refused r => .refused r := by
  induction is generalizing s with
  | nil => rfl
  | cons i is ih => simp [ih]

/-- A run of commands always reaches its end (60_exceptions.md R91). -/
theorem runCommands_total (is : List Instr) (s : State) :
    runCommands is s = .next (is.foldl (fun t i => afterInstr i t) s) := by
  induction is generalizing s with
  | nil => rfl
  | cons i is ih => simp [ih]

end Sys2Proof.Machine
end

