-- ==== Sys2Proof/Laws/Runs.lean ====
section
/-! SUPPORT. Runs: how a run of edges unfolds, and the two inductions over it packaged once (a property
every step keeps, and a relation between two runs that every step keeps). -/

namespace Sys2Proof.Machine

/-! ### What no command touches -/

@[simp] theorem afterInstr_config (i : Instr) (s : State) : (afterInstr i s).config = s.config := by
  cases i <;> simp [afterInstr, settleRemainder]; split <;> rfl

@[simp] theorem afterInstr_input (i : Instr) (s : State) : (afterInstr i s).input = s.input := by
  cases i <;> simp [afterInstr, settleRemainder]; split <;> rfl

@[simp] theorem afterInstr_draws (i : Instr) (s : State) : (afterInstr i s).draws = s.draws := by
  cases i <;> simp [afterInstr, settleRemainder]; split <;> rfl

/-- A command appends at most one byte, and only a `SAMPLE` at `cnt == 7` does (41_bit_packer.md R73). -/
theorem afterInstr_output (i : Instr) (s : State) :
    ((afterInstr i s).output = s.output ∧ (afterInstr i s).emitted = s.emitted) ∨
    (∃ x, i = .sample x ∧ s.cnt = 7 ∧
      (afterInstr i s).output = s.output ++ [pack s.acc (quantize s.mode s.w x).lastBit] ∧
      (afterInstr i s).emitted = some (pack s.acc (quantize s.mode s.w x).lastBit)) := by
  cases i with
  | nop => exact .inl ⟨rfl, rfl⟩
  | start m => exact .inl ⟨rfl, rfl⟩
  | sample x =>
    by_cases h : s.cnt = 7
    · exact .inr ⟨x, rfl, h, by simp [afterInstr, afterSample_last h]⟩
    · exact .inl (by simp [afterInstr, afterSample_inside h])
  | endBuffer =>
    simp only [afterInstr, afterEnd_cases]
    split <;> exact .inl ⟨rfl, rfl⟩

/-- A step consumes one edge. -/
theorem step_next_input {s t : State} (h : step s = .next t) : t.input = s.input.tail := by
  obtain ⟨-, rfl⟩ | ⟨i, -, rfl⟩ := step_next h <;> simp

/-! ### How a run unfolds -/

@[simp] theorem runEdges_nil (s : State) : runEdges [] s = .next (s.withInput []) := rfl

/-- A run of one edge and more is that edge's step and then the run of the rest. -/
theorem runEdges_cons (e : Edge) (es : List Edge) (s : State) :
    runEdges (e :: es) s =
      match step (s.withInput (e :: es)) with
      | .next t => runEdges es t
      | .fault r => .fault r
      | .refused r => .refused r := by
  simp only [runEdges, List.length_cons, runSteps]
  cases h : step (s.withInput (e :: es)) with
  | next t =>
    have ht : t.withInput es = t := by
      have := step_next_input h
      simp only [State.withInput_input, List.tail_cons] at this
      rw [← this]; rfl
    simp only [ht]
  | fault r => rfl
  | refused r => rfl

/-- The state in which the action of a presented edge is performed does not depend on what else is to
come, but for the command stream. -/
def begun (s : State) (es : List Edge) : State := (s.withInput es).beginStep.withInput es

/-- One edge of a run, by what it asks for. -/
theorem runEdges_cons_action (e : Edge) (es : List Edge) (s : State) :
    runEdges (e :: es) s =
      match e.action with
      | .reset => runEdges es (hardwareReset (begun s es))
      | .perform i => runEdges es (afterInstr i (begun s es))
      | .reserved => .refused .reservedEncoding := by
  have hb : (s.withInput (e :: es)).beginStep = begun s es := rfl
  rw [runEdges_cons]
  unfold step
  rw [presentedEdge_cons, hb]
  cases e.action with
  | reset => rfl
  | perform i => simp only [exec_eq_next]
  | reserved => rfl

/-- Runs end to end. -/
theorem runEdges_append (es fs : List Edge) (s : State) :
    runEdges (es ++ fs) s =
      match runEdges es s with
      | .next t => runEdges fs t
      | .fault r => .fault r
      | .refused r => .refused r := by
  induction es generalizing s with
  | nil =>
    simp only [List.nil_append, runEdges_nil]
    rfl
  | cons e es ih =>
    simp only [List.cons_append, runEdges_cons_action]
    cases e.action with
    | reset =>
      simp only [ih]; rfl
    | perform i =>
      simp only [ih]
      have : runEdges es (afterInstr i (begun s (es ++ fs))) = runEdges es (afterInstr i (begun s es)) := by
        simp only [runEdges]
        congr 1
        cases i with
        | nop => rfl
        | start m => rfl
        | sample x =>
          simp only [afterInstr]
          by_cases h : s.cnt = 7
          · rw [afterSample_last (by exact h), afterSample_last (by exact h)]; rfl
          · rw [afterSample_inside (by exact h), afterSample_inside (by exact h)]; rfl
        | endBuffer =>
          simp only [afterInstr, afterEnd_cases]
          cases h : s.config.remainderCommits <;> simp [begun, h] <;> rfl
      rw [this]
    | reserved => rfl

/-! ### The inductions, packaged once -/

/-- A property of states that ignores the command stream and that reset and every command keep is kept by
a whole run. -/
theorem runEdges_keeps {P : State → Prop}
    (hb : ∀ s es, P s → P (begun s es)) (hw : ∀ s es, P s → P (s.withInput es))
    (hr : ∀ s, P s → P (hardwareReset s)) (hi : ∀ i s, P s → P (afterInstr i s)) :
    ∀ (es : List Edge) (s t : State), P s → runEdges es s = .next t → P t := by
  intro es
  induction es with
  | nil => intro s t hs h; cases h; exact hw s [] hs
  | cons e es ih =>
    intro s t hs h
    rw [runEdges_cons_action] at h
    cases ha : e.action with
    | reset => rw [ha] at h; exact ih _ t (hr _ (hb s es hs)) h
    | perform i => rw [ha] at h; exact ih _ t (hi i _ (hb s es hs)) h
    | reserved => rw [ha] at h; cases h

/-- Two runs of the same edges from related states: both reach related ends, or both are refused. -/
theorem runEdges_related {R : State → State → Prop}
    (hb : ∀ s u es, R s u → R (begun s es) (begun u es))
    (hw : ∀ s u es, R s u → R (s.withInput es) (u.withInput es))
    (hr : ∀ s u, R s u → R (hardwareReset s) (hardwareReset u))
    (hi : ∀ i s u, R s u → R (afterInstr i s) (afterInstr i u)) :
    ∀ (es : List Edge) (s u : State), R s u →
      (∃ t v, runEdges es s = .next t ∧ runEdges es u = .next v ∧ R t v) ∨
      (runEdges es s = .refused .reservedEncoding ∧ runEdges es u = .refused .reservedEncoding) := by
  intro es
  induction es with
  | nil => intro s u h; exact .inl ⟨_, _, rfl, rfl, hw s u [] h⟩
  | cons e es ih =>
    intro s u h
    rw [runEdges_cons_action, runEdges_cons_action]
    cases e.action with
    | reset => exact ih _ _ (hr _ _ (hb s u es h))
    | perform i => exact ih _ _ (hi i _ _ (hb s u es h))
    | reserved => exact .inr ⟨rfl, rfl⟩

end Sys2Proof.Machine
end

