-- ==== Sys2Proof/Laws/Groups.lean ====
section
/-! SUPPORT. What a list of samples does: the CodecState after it, a group of eight from a byte boundary,
and fewer samples than complete a byte. -/

namespace Sys2Proof.Machine

/-! ### The CodecState of a list of samples -/

@[simp] theorem codecFold_nil (m : Mode) (w : CodecState) : codecFold m w [] = w := rfl

@[simp] theorem codecFold_cons (m : Mode) (w : CodecState) (x : SampleBits) (xs : List SampleBits) :
    codecFold m w (x :: xs) = codecFold m (quantize m w x) xs := rfl

theorem codecFold_append (m : Mode) (w : CodecState) (xs ys : List SampleBits) :
    codecFold m w (xs ++ ys) = codecFold m (codecFold m w xs) ys := List.foldl_append

@[simp] theorem decisions_length (m : Mode) (w : CodecState) (xs : List SampleBits) :
    (decisions m w xs).length = xs.length := by
  induction xs generalizing w with
  | nil => rfl
  | cons x xs ih => simp [decisions, ih]

/-- Whatever their number, samples move `W` by the fold and leave the mode and the parameters alone. -/
theorem runCommands_samples_w (xs : List SampleBits) (s : State) :
    ∃ t, runCommands (xs.map .sample) s = .next t ∧ t.w = codecFold s.mode s.w xs ∧
      t.mode = s.mode ∧ t.config = s.config := by
  induction xs generalizing s with
  | nil => exact ⟨s, rfl, rfl, rfl, rfl⟩
  | cons x xs ih =>
    obtain ⟨t, h1, h2, h3, h4⟩ := ih (afterSample x s)
    exact ⟨t, by simpa [afterInstr] using h1, by rw [h2]; simp, by simpa using h3, by simpa using h4⟩

/-! ### Samples that complete no byte -/

/-- Samples that stay below the eighth emit nothing and take no checkpoint (41_bit_packer.md R73, R74). -/
theorem runCommands_samples_inside (xs : List SampleBits) (s : State)
    (h : s.cnt.toNat + xs.length < 8) :
    ∃ t, runCommands (xs.map .sample) s = .next t ∧ t.output = s.output ∧ t.k = s.k ∧
      t.mode = s.mode ∧ t.config = s.config ∧ t.w = codecFold s.mode s.w xs := by
  induction xs generalizing s with
  | nil => exact ⟨s, rfl, rfl, rfl, rfl, rfl, rfl⟩
  | cons x xs ih =>
    have h7 : s.cnt ≠ 7 := fun hh => by
      have := cnt_toNat_eq_seven.2 hh
      simp at h; omega
    obtain ⟨t, h1, h2, h3, h4, h5, h6⟩ := ih (afterSample x s)
      (by rw [afterSample_cnt, cnt_add_one_toNat h7]; simp at h; omega)
    refine ⟨t, by simpa [afterInstr] using h1, ?_, ?_, by simpa using h4, by simpa using h5,
      by rw [h6]; simp⟩
    · rw [h2, afterSample_output, if_neg h7, List.append_nil]
    · rw [h3, afterSample_k, if_neg h7]

/-! ### A group of eight -/

/-- Eight samples from `cnt == 0`: one byte, the eight decisions shifted through `acc`, and the checkpoint
taken (41_bit_packer.md R71, R73, R74). -/
theorem runCommands_group (xs : List SampleBits) (hx : xs.length = 8) (s : State) (h : s.cnt = 0) :
    ∃ t, runCommands (xs.map .sample) s = .next t ∧ t.cnt = 0 ∧ t.acc = 0 ∧ t.mode = s.mode ∧
      t.config = s.config ∧ t.w = codecFold s.mode s.w xs ∧ t.k = t.w ∧
      t.output = s.output ++ [(decisions s.mode s.w xs).foldl pack s.acc] := by
  match xs, hx with
  | [x0, x1, x2, x3, x4, x5, x6, x7], _ =>
    refine ⟨afterSample x7 (afterSample x6 (afterSample x5 (afterSample x4 (afterSample x3
      (afterSample x2 (afterSample x1 (afterSample x0 s))))))), rfl, ?_⟩
    refine ⟨by simp [h], by simp [afterSample_acc, h], by simp, by simp, by simp,
      by simp [afterSample_k, h], ?_⟩
    simp [afterSample_output, afterSample_acc, h, decisions]

/-- Eight shifts leave nothing of the old `acc` and give the weighted sum (41_bit_packer.md R72, R75). -/
theorem foldl_pack_eq (a : Byte) (bs : List Bool) (h : bs.length = 8) :
    bs.foldl pack a = BitVec.ofNat 8 (weightedSum bs) := by
  match bs, h with
  | [b0, b1, b2, b3, b4, b5, b6, b7], _ =>
    have hb : ∀ b : Bool, (if b = true then 128 else 0) = 128 * b.toNat ∧ b.toNat ≤ 1 := by decide
    have h0 := (hb b0).2
    have h1 := (hb b1).2
    have h2 := (hb b2).2
    have h3 := (hb b3).2
    have h4 := (hb b4).2
    have h5 := (hb b5).2
    have h6 := (hb b6).2
    have h7 := (hb b7).2
    apply BitVec.eq_of_toNat_eq
    have ha := a.isLt
    simp only [List.foldl, pack_toNat, (hb _).1, weightedSum, BitVec.toNat_ofNat]
    omega

/-! ### What a command's effect depends on -/

theorem registers_eq_iff {s u : State} :
    s.registers = u.registers ↔
      s.mode = u.mode ∧ s.w = u.w ∧ s.acc = u.acc ∧ s.cnt = u.cnt ∧ s.k = u.k := by
  simp [State.registers]

/-- The registers after a command, and the bytes it adds, depend on the parameters and the registers alone:
not on the output stream, the command stream or the model's counter (10_state.md R20, 20_memory.md R27). -/
theorem afterInstr_registers (i : Instr) {s u : State} (hc : s.config = u.config)
    (hr : s.registers = u.registers) :
    (afterInstr i s).registers = (afterInstr i u).registers ∧
      ∃ z, (afterInstr i s).output = s.output ++ z ∧ (afterInstr i u).output = u.output ++ z := by
  rw [registers_eq_iff] at hr
  obtain ⟨h1, h2, h3, h4, h5⟩ := hr
  cases i with
  | nop => exact ⟨registers_eq_iff.2 ⟨h1, h2, h3, h4, h5⟩, [], by simp [afterInstr]⟩
  | start m => exact ⟨by simp [State.registers, afterInstr, hc], [], by simp [afterInstr]⟩
  | sample x =>
    simp only [afterInstr]
    refine ⟨registers_eq_iff.2 ⟨by simp [h1], by simp [h1, h2], by simp [afterSample_acc, h2, h3, h4],
      by simp [h4], by simp [afterSample_k, h1, h2, h4, h5]⟩, _, afterSample_output x s, ?_⟩
    rw [afterSample_output, h2, h3, h4]
  | endBuffer =>
    simp only [afterInstr]
    refine ⟨registers_eq_iff.2 ⟨by simp [h1], ?_, by simp, by simp, ?_⟩, [], by simp⟩
    · simp [settleRemainder_w, hc, h2, h5]
    · simp [settleRemainder_k, hc, h2, h5]

end Sys2Proof.Machine
end

