-- ==== Sys2Proof/Laws/PerInstr.lean ====
section
/-! SUPPORT. Statements made of every command, one lemma per constructor of `Instr`. -/

namespace Sys2Proof.Laws.EncodesInRow

/-- The canonical word of a command selects the command's own row of the opcode map, and no other row
(spec/30_encoding.md R44). -/
def Statement (i : Instr) : Prop :=
  (opcodeRows.filter (fun r => r.selects (encode i))).map OpcodeRow.mnemonic = [i.mnemonic]

theorem nop : Statement .nop := by unfold Statement; decide

theorem start (m : Mode) : Statement (.start m) := by cases m <;> (unfold Statement; decide)

theorem sample (s : SampleBits) : Statement (.sample s) := by
  unfold Statement; revert s; decide

theorem endBuffer : Statement .endBuffer := by unfold Statement; decide

end Sys2Proof.Laws.EncodesInRow
end

