-- ==== Sys2Proof/Laws/Quantizer.lean ====
section
/-! SUPPORT. The arithmetic of one sample: the range facts of spec/40_quantizer.md R68 for the exact
integers, and what they give for the registers. -/

namespace Sys2Proof.Machine

/-! ### Mode constants -/

@[simp] theorem modeConstants_current : modeConstants .current = ⟨1, 1, 10, false⟩ := rfl
@[simp] theorem modeConstants_legacy : modeConstants .legacy = ⟨7, 20, 8, true⟩ := rfl

theorem respMax_le (m : Mode) : respMax (modeConstants m) ≤ 1023 := by cases m <;> decide

theorem respMax_eq (m : Mode) : respMax (modeConstants m) = 2 ^ (modeConstants m).prec - 1 := rfl

/-- `HALF` is half of `2^PREC` (00_scope.md R6). -/
theorem two_mul_levelHalf (m : Mode) : 2 * levelHalf (modeConstants m) = 2 ^ (modeConstants m).prec := by
  cases m <;> decide

/-! ### The decision -/

theorem decideBit_true_iff (s l : Int) : decideBit s l = true ↔ l < s ∨ (s = l ∧ l = 127) := by
  simp [decideBit]

/-- A true decision at the ceiling or below it leaves room toward 127, a false one toward -128. -/
theorem levelTarget_cases (bit : Bool) :
    (bit = true ∧ levelTarget bit = 127) ∨ (bit = false ∧ levelTarget bit = -128) := by
  cases bit <;> simp [levelTarget]

/-! ### The rounded move stays between the level and its target (R68) -/

/-- Upwards: for `0 <= d` and `0 <= r <= 2^P - 1` the rounded move is in `[0, d]`. -/
theorem roundedMove_up (m : Mode) {r d : Int} (hr : 0 ≤ r) (hr' : r ≤ respMax (modeConstants m))
    (hd : 0 ≤ d) :
    0 ≤ asr (r * d + levelHalf (modeConstants m)) (modeConstants m).prec ∧
      asr (r * d + levelHalf (modeConstants m)) (modeConstants m).prec ≤ d := by
  have hh := two_mul_levelHalf m
  have hp : (0 : Int) < 2 ^ (modeConstants m).prec := by positivity
  rw [respMax_eq] at hr'
  have hrd : 0 ≤ r * d := mul_nonneg hr hd
  refine ⟨asr_nonneg (by omega) _, ?_⟩
  rw [asr_le_iff]
  nlinarith

/-- Downwards: for `d <= 0` the rounded move is in `[d, 0]`. -/
theorem roundedMove_down (m : Mode) {r d : Int} (hr : 0 ≤ r) (hr' : r ≤ respMax (modeConstants m))
    (hd : d ≤ 0) :
    d ≤ asr (r * d + levelHalf (modeConstants m)) (modeConstants m).prec ∧
      asr (r * d + levelHalf (modeConstants m)) (modeConstants m).prec ≤ 0 := by
  have hh := two_mul_levelHalf m
  have hp : (0 : Int) < 2 ^ (modeConstants m).prec := by positivity
  rw [respMax_eq] at hr'
  have hrd : r * d ≤ 0 := mul_nonpos_of_nonneg_of_nonpos hr hd
  rw [le_asr_iff, asr_le_iff]
  constructor <;> nlinarith

/-- The new level lies between the old one and 127 when the decision is true, and it has moved unless it
was there already (R57, R68). -/
theorem nextLevel_up (m : Mode) {l r : Int} (hl' : l ≤ 127) (hr : 0 ≤ r)
    (hr' : r ≤ respMax (modeConstants m)) :
    l ≤ nextLevel (modeConstants m) true l r ∧ nextLevel (modeConstants m) true l r ≤ 127 ∧
      (l ≠ 127 → l < nextLevel (modeConstants m) true l r) := by
  have h := roundedMove_up m hr hr' (d := 127 - l) (by omega)
  unfold nextLevel rawLevel levelSum
  simp only [levelTarget, if_true]
  split <;> omega

/-- The new level lies between -128 and the old one when the decision is false, and it has moved unless it
was there already (R57, R68). -/
theorem nextLevel_down (m : Mode) {l r : Int} (hl : -128 ≤ l) (hr : 0 ≤ r)
    (hr' : r ≤ respMax (modeConstants m)) :
    -128 ≤ nextLevel (modeConstants m) false l r ∧ nextLevel (modeConstants m) false l r ≤ l ∧
      (l ≠ -128 → nextLevel (modeConstants m) false l r < l) := by
  have h := roundedMove_down m hr hr' (d := -128 - l) (by omega)
  unfold nextLevel rawLevel levelSum
  simp only [levelTarget, Bool.false_eq_true, if_false]
  split <;> omega

theorem nextLevel_range (m : Mode) (bit : Bool) {l r : Int} (hl : -128 ≤ l) (hl' : l ≤ 127)
    (hr : 0 ≤ r) (hr' : r ≤ respMax (modeConstants m)) :
    -128 ≤ nextLevel (modeConstants m) bit l r ∧ nextLevel (modeConstants m) bit l r ≤ 127 := by
  cases bit
  · have := nextLevel_down m hl hr hr'; omega
  · have := nextLevel_up m hl' hr hr'; omega

/-! ### The response -/

/-- In `current` mode the response is only clamped, never stepped (R62, R63). -/
theorem nextResponse_current (bit lastBit : Bool) (r : Int) :
    nextResponse (modeConstants .current) bit lastBit r = max r 8 := by
  simp [nextResponse, respFloor]

/-- In `legacy` mode the response is adapted and not clamped (R59, R60, R63). -/
theorem nextResponse_legacy (bit lastBit : Bool) (r : Int) :
    nextResponse (modeConstants .legacy) bit lastBit r =
      adaptedResponse (modeConstants .legacy) (sameDecision bit lastBit) r := by
  simp [nextResponse]

/-- The adapting mode's response fits ten bits from every state, and is at most 255 from 255 (R68). -/
theorem adaptedResponse_range (same : Bool) {r : Int} (hr : 0 ≤ r) (hr' : r ≤ 1023) :
    0 ≤ adaptedResponse (modeConstants .legacy) same r ∧
      adaptedResponse (modeConstants .legacy) same r ≤ 1023 ∧
      (r ≤ 255 → adaptedResponse (modeConstants .legacy) same r ≤ 255) := by
  unfold adaptedResponse rawResponse respSum respTarget respDelta respMax asr
  cases same <;> simp <;> split <;> omega

/-- From every state the new response fits its register (R67). -/
theorem nextResponse_fits (m : Mode) (bit lastBit : Bool) {r : Int} (hr : 0 ≤ r) (hr' : r ≤ 1023) :
    0 ≤ nextResponse (modeConstants m) bit lastBit r ∧
      nextResponse (modeConstants m) bit lastBit r ≤ 1023 := by
  cases m
  · rw [nextResponse_current]; omega
  · rw [nextResponse_legacy]
    have := adaptedResponse_range (sameDecision bit lastBit) hr hr'
    omega

/-- From a response within the mode's ceiling the new one is within it (R68). -/
theorem nextResponse_le_respMax (m : Mode) (bit lastBit : Bool) {r : Int} (hr : 0 ≤ r)
    (hr' : r ≤ respMax (modeConstants m)) :
    nextResponse (modeConstants m) bit lastBit r ≤ respMax (modeConstants m) := by
  cases m
  · rw [nextResponse_current]; simp [respMax] at *; omega
  · rw [nextResponse_legacy]
    simp only [respMax, modeConstants_legacy] at hr' ⊢
    have := (adaptedResponse_range (sameDecision bit lastBit) hr (by omega)).2.2
    simp only [modeConstants_legacy] at this
    omega

/-! ### The registers after one sample -/

/-- The response register holds the exact new response, from every state (R64, R67). -/
theorem quantize_response_toNat (m : Mode) (w : CodecState) (x : SampleBits) :
    ((quantize m w x).response.toNat : Int) =
      nextResponse (modeConstants m) (decideBit (sampleValue x) w.level.toInt) w.lastBit
        w.response.toNat := by
  have h := response_toNat_range w.response
  have h' := nextResponse_fits m (decideBit (sampleValue x) w.level.toInt) w.lastBit h.1 h.2
  exact narrowResponse_toNat h'.1 h'.2

/-- The level register holds the exact new level whenever the response is within the mode's ceiling
(R64, R67, R68). -/
theorem quantize_level_toInt {m : Mode} {w : CodecState} (h : w.InRange m) (x : SampleBits) :
    (quantize m w x).level.toInt =
      nextLevel (modeConstants m) (decideBit (sampleValue x) w.level.toInt) w.level.toInt
        w.response.toNat := by
  have hl := level_toInt_range w.level
  have hr := nextLevel_range m (decideBit (sampleValue x) w.level.toInt) hl.1 hl.2
    (response_toNat_range w.response).1 h
  exact narrowLevel_toInt hr.1 hr.2

/-- A sample keeps the response within the mode's ceiling (R68). -/
theorem quantize_inRange {m : Mode} {w : CodecState} (h : w.InRange m) (x : SampleBits) :
    (quantize m w x).InRange m := by
  rw [CodecState.InRange, quantize_response_toNat]
  exact nextResponse_le_respMax m _ _ (response_toNat_range w.response).1 h

/-- In `current` mode the response is at least 8 after every sample (R63). -/
theorem quantize_floor (w : CodecState) (x : SampleBits) :
    8 ≤ (quantize .current w x).response.toNat := by
  have h := quantize_response_toNat .current w x
  rw [nextResponse_current] at h
  omega

/-- The fresh CodecState is within the ceiling of both modes (00_scope.md R7). -/
theorem freshCodec_inRange (c : Config) (m : Mode) : (freshCodec c).InRange m := by
  have h := c.initResponse.isLt
  have h2 : (freshCodec c).response.toNat = c.initResponse.toNat := by
    simp [freshCodec]; omega
  rw [CodecState.InRange, h2]
  cases m <;> simp [respMax] <;> omega

end Sys2Proof.Machine
end

