-- ==== Sys2Proof/Tests/Slice0.lean ====
section
/-! SUPPORT. Tests: expected values are those of spec/95_test_vectors.md (the vector is named at each
theorem) or of the rule named; and, for every statement with hypotheses, a state and operands that meet
them together, with each clause at a boundary value. -/

namespace Sys2Proof.Tests

open Sys2Proof Sys2Proof.Machine

/-! ### Helpers -/

/-- The next state of an outcome, so that outcomes can be compared. -/
def nextState : Host.Outcome State Fault Refusal → Option State
  | .next t => some t
  | .fault _ => none
  | .refused _ => none

/-- The reset state with given registers. -/
def stateOf (m : Mode) (w : CodecState) (acc : Byte) (cnt : BitVec 3) (k : CodecState) : State :=
  { State.reset with mode := m, w := w, acc := acc, cnt := cnt, k := k }

/-- A CodecState from plain numbers. -/
def codec (level : Int) (response : Nat) (lastBit : Bool) : CodecState :=
  ⟨BitVec.ofInt 8 level, BitVec.ofNat 10 response, lastBit⟩

/-- At a byte boundary inside a session (S9 after row 7). -/
def atBoundary : State := stateOf .current (codec 8 8 true) 0 0 (codec 8 8 true)

/-- Three samples into a group (S9 after row 10). -/
def insideGroup : State := stateOf .current (codec 5 8 false) 0 3 (codec 8 8 true)

/-- Before the eighth sample of a group (S1 after row 6). -/
def beforeEighth : State := stateOf .current (codec 7 8 true) 0xFE 7 (codec 0 0 false)

/-- A legacy state at its ceiling, at a boundary (the start of Q25). -/
def legacyCeiling : State := stateOf .legacy (codec (-128) 255 true) 0 0 (codec (-128) 255 true)

/-- A state with `REMAINDER_COMMITS = true`. -/
def committing (s : State) : State := { s with config := { remainderCommits := true } }

/-! ### Decoding: words written out bit by bit from 30_encoding.md R44 (and 95 section 5) -/

theorem test_decode_nop : decode 0b00_00000000#10 = some .nop := by decide
theorem test_decode_nop_data_ignored : decode 0b00_11111111#10 = some .nop := by decide
theorem test_decode_start_current : decode 0b01_00000000#10 = some (.start .current) := by decide
theorem test_decode_start_legacy : decode 0b01_00000001#10 = some (.start .legacy) := by decide
theorem test_decode_sample_10 : decode 0b10_00001010#10 = some (.sample (BitVec.ofInt 8 10)) := by decide
theorem test_decode_sample_neg100 : decode 0b10_10011100#10 = some (.sample (BitVec.ofInt 8 (-100))) := by
  decide
theorem test_decode_end : decode 0b11_00000000#10 = some .endBuffer := by decide
theorem test_decode_table_word : decodeTableWord 16 0x2FF = some (.sample (BitVec.ofInt 8 (-1))) := by decide
theorem test_decode_table_word_wide : decodeTableWord 16 0x400 = none := by decide

/-! ### Well-formedness smoke: an ill-formed term for each check, refused -/

/-- The four ends of the reserved ranges (R48), and their neighbours that are defined. -/
theorem test_reserved_words :
    [0x102, 0x1FF, 0x301, 0x3FF].map wordDefined = [false, false, false, false] ∧
    [0x101, 0x200, 0x300].map wordDefined = [true, true, true] ∧
    [0x102, 0x1FF, 0x301, 0x3FF].map decode = [none, none, none, none] := by decide

/-- Samples just outside the range, alone and in a buffer (R50, R93), and just inside. -/
theorem test_ill_formed_lines :
    TextLine.wellFormed (.sample 128) = false ∧ TextLine.wellFormed (.sample (-129)) = false ∧
    TextLine.wellFormed (.buffer [0, 128]) = false ∧ TextLine.wellFormed (.sample 127) = true ∧
    TextLine.wellFormed (.sample (-128)) = true := by decide

/-! ### The commands, one step each -/

/-- Q20, hand-checked in the spec: floor shift where truncation would differ, response nudge -1. -/
theorem test_sample_legacy_floor_and_nudge :
    (nextState (exec (.sample 0) (stateOf .legacy (codec 3 6 true) 0 0 (codec 3 6 true)))).map (·.w) =
      some (codec 0 5 false) := by decide

/-- S1 row 7: the eighth sample emits, clears the packer and takes the checkpoint. -/
theorem test_sample_emits_eighth :
    nextState (exec (.sample 80) beforeEighth) =
      some { atBoundary with output := [0xFF], emitted := some 0xFF } := by decide

/-- S12 row 3: `START legacy` in the middle of a group. -/
theorem test_start_mid_group :
    nextState (exec (.start .legacy) (stateOf .current (codec 3 8 true) 0xE0 3 (codec 0 0 false))) =
      some (stateOf .legacy (codec 0 0 false) 0 0 (codec 0 0 false)) := by decide

/-- S9 row 11: `END` rolls the remainder back. -/
theorem test_end_rolls_back : nextState (exec .endBuffer insideGroup) = some atBoundary := by decide

/-- S10 row 11: with `REMAINDER_COMMITS` it does not. -/
theorem test_end_commits :
    (nextState (exec .endBuffer (committing insideGroup))).map State.registers =
      some ⟨.current, codec 5 8 false, 0, 0, codec 5 8 false⟩ := by decide

/-- S13 row 1: a `NOP` inside a group. -/
theorem test_nop : nextState (exec .nop insideGroup) = some insideGroup := by decide

/-! ### Arithmetic and the packer -/

/-- The examples of `asr` in 00_scope.md R9 and 40_quantizer.md R66. -/
theorem test_asr : asr (-12) 8 = -1 ∧ asr (-512) 10 = -1 ∧ asr (-658) 8 = -3 ∧ asr 520 10 = 0 ∧
    asr 1913 8 = 7 ∧ asr (-257) 8 = -2 ∧ asr (-256) 8 = -1 := by decide

/-- The mode constants and what is derived from them (00_scope.md R6). -/
theorem test_mode_constants :
    levelHalf (modeConstants .current) = 512 ∧ respMax (modeConstants .current) = 1023 ∧
    respFloor (modeConstants .current) = 8 ∧ levelHalf (modeConstants .legacy) = 128 ∧
    respMax (modeConstants .legacy) = 255 := by decide

/-- P8, P9. -/
theorem test_pack : pack 0xA8 false = 0x54 ∧ pack 0x54 true = 0xAA := by decide

/-- P13, from two start values of `acc`. -/
theorem test_pack_eight :
    [true, true, false, false, true, false, true, false].foldl pack 0x00 = 0x53 ∧
    [true, true, false, false, true, false, true, false].foldl pack 0xFF = 0x53 := by decide

/-! ### The step, the pins, the text -/

/-- PRG6: the second word is refused. -/
theorem test_step_refuses_reserved :
    step (State.reset.withFetchWord 16 0x1FE) = .refused .reservedEncoding := by rfl

/-- 60_exceptions.md R97: reset has priority over the command at the same edge; emitted bytes stay. -/
theorem test_reset_priority :
    (nextState (step { insideGroup with input := [⟨true, true, 0x20A⟩], output := [0xFF] })).map
        (fun t => (t.registers, t.output)) =
      some (State.reset.registers, [0xFF]) := by decide

/-- 20_memory.md R39: the pins in the step that emits (S1 row 7). -/
theorem test_output_pins :
    (nextState (step (beforeEighth.withFetchWord 16 0x250))).map (fun t => (t.outValid, t.outByte)) =
      some (true, 0xFF) := by decide

/-- The notation of 30_encoding.md R50, R51, with the words PRG5 has for it. -/
theorem test_assemble_text :
    (assembleText "IDLE 2 ; pause\nBUFFER []\nSAMPLE 127\nIDLE 1\nSAMPLE 127\nEND").map (·.map encode) =
      some [0x000, 0x000, 0x300, 0x27F, 0x000, 0x27F, 0x300] ∧
    assembleText "SAMPLE 128" = none := by decide

/-! ### The fresh state of `START` and the reset state agree (70_reset_and_hazards.md R104) -/

theorem test_reset_is_start : hardwareReset State.reset = State.reset := by decide

/-! ### Witnesses: the hypotheses of every statement that has some can be met together -/

theorem witness_RegisterValuesAfterResetAndStart :
    ({ insideGroup with input := [⟨true, false, 0⟩] } : State).presentedEdge.rst = true := by decide

theorem witness_NopChangesNothing : (0x0FF : CommandWord).toNat < 256 := by decide

theorem witness_StartBeginsFreshSession :
    exec .endBuffer insideGroup = .next atBoundary ∧ (∀ m, Instr.endBuffer ≠ .start m) :=
  ⟨by rfl, fun _ h => nomatch h⟩

theorem witness_EndSettlesRemainder :
    (committing insideGroup).config.remainderCommits = true ∧
    insideGroup.config.remainderCommits = false := by decide

theorem witness_EndAtBoundaryChangesNothing :
    (atBoundary.Inv ∧ atBoundary.cnt = 0) ∧ ((committing atBoundary).Inv ∧ (committing atBoundary).cnt = 0) := by
  decide

theorem witness_AllButSampleIdempotent : ∀ x, Instr.endBuffer ≠ .sample x := fun _ h => nomatch h

/-- The tie at -128 and the tie at 126, one below the ceiling (Q6, R54). -/
theorem witness_SampleDecidesByLevel :
    ((0x80 : SampleBits).toInt = (codec (-128) 8 false).level.toInt ∧
      (codec (-128) 8 false).level.toInt ≠ 127) ∧
    ((126 : SampleBits).toInt = (codec 126 8 true).level.toInt ∧ (codec 126 8 true).level.toInt ≠ 127) := by
  decide

/-- Both modes, `legacy` at its ceiling of 255 (Q25). -/
theorem witness_SampleMovesLevel :
    (legacyCeiling.mode = .legacy → legacyCeiling.w.response.toNat ≤ 255) ∧ legacyCeiling.mode = .legacy ∧
    (atBoundary.mode = .legacy → atBoundary.w.response.toNat ≤ 255) := by decide

theorem witness_SampleAdaptsResponse :
    atBoundary.mode = .current ∧ legacyCeiling.mode = .legacy := by decide

/-- Two samples that decide alike from states that differ in `level`, and two from states that differ in
`lastBit`. -/
theorem witness_UpdateReadsOnlyOldRegisters :
    let s := stateOf .legacy (codec 0 7 true) 0 0 (codec 0 7 true)
    let u := stateOf .legacy (codec 5 7 true) 0 0 (codec 0 7 true)
    let v := stateOf .legacy (codec 0 7 false) 0 0 (codec 0 7 true)
    (∃ s' u', exec (.sample 1) s = .next s' ∧ exec (.sample 6) u = .next u' ∧ s.mode = u.mode ∧
      s'.w.lastBit = u'.w.lastBit ∧ s.w.response = u.w.response ∧ s.w.lastBit = u.w.lastBit) ∧
    (∃ s' v', exec (.sample 1) s = .next s' ∧ exec (.sample 1) v = .next v' ∧ s.mode = v.mode ∧
      s'.w.lastBit = v'.w.lastBit ∧ s.w.response = v.w.response ∧ s.w.level = v.w.level) :=
  ⟨⟨_, _, rfl, rfl, by decide⟩, ⟨_, _, rfl, rfl, by decide⟩⟩

/-- A true and a false decision, each at its far end and at its target. -/
theorem witness_LevelMovesTowardTarget :
    (legacyCeiling.mode = .legacy → legacyCeiling.w.response.toNat ≤ 255) ∧
    (quantize .legacy legacyCeiling.w 0x7F).lastBit = true ∧
    (quantize .legacy legacyCeiling.w 0x80).lastBit = false ∧
    legacyCeiling.w.level.toInt ≠ 127 ∧ (codec 127 8 true).level.toInt ≠ -128 := by decide

/-- The largest and the smallest product-sum (Q11, Q12) and the corner of the response move (Q24). -/
theorem witness_IntermediatesStayInWidth :
    levelSum (modeConstants .current) true (-128) 1023 = 261377 ∧
    levelSum (modeConstants .current) false 127 1023 = -260353 ∧
    levelSum (modeConstants .legacy) true (-128) 255 = 65153 ∧
    levelSum (modeConstants .legacy) false 127 255 = -64897 ∧
    respSum (modeConstants .legacy) false 255 = -4972 ∧
    respSum (modeConstants .legacy) true 0 = 1913 := by decide

/-- `current` mode with response 8, at the boundaries of the table's rows (Q14, Q15, Q17, Q13, Q7). -/
theorem witness_CurrentModeClosedForm :
    ([0] : List SampleBits) ≠ [] ∧
    (∀ l ∈ [-128, -127, -65, -64, 63, 64, 65, 126, 127],
      (stateOf .current (codec l 8 true) 0 0 (codec 0 0 false)).mode = .current ∧
      (stateOf .current (codec l 8 true) 0 0 (codec 0 0 false)).w.response = 8) := by decide

theorem witness_ExtremeSamplesDecide : legacyCeiling.cnt = 0 ∧ atBoundary.cnt = 0 := by decide

theorem witness_ConstantExtremeConverges :
    (legacyCeiling.mode = .legacy → legacyCeiling.w.response.toNat ≤ 255) ∧ 255 ≤ 255 := by decide

/-- The eighth sample, and the seventh and the first. -/
theorem witness_SamplePacksAndEmits :
    beforeEighth.cnt.toNat = 7 ∧ (stateOf .current (codec 6 8 true) 0xFC 6 (codec 0 0 false)).cnt.toNat < 7 ∧
    atBoundary.cnt.toNat < 7 := by decide

theorem witness_SampleFrame : insideGroup.cnt ≠ 7 := by decide

theorem witness_EightDecisionsMakeByte :
    atBoundary.cnt = 0 ∧ ([10, 20, 30, 40, 50, 60, 70, 80] : List SampleBits).length = 8 := by decide

theorem witness_SamplesCountModuloEight :
    ∀ i ∈ [Instr.nop, .sample 1], i = .nop ∨ ∃ x, i = .sample x := by
  intro i hi
  simp only [List.mem_cons, List.not_mem_nil, or_false] at hi
  rcases hi with rfl | rfl
  · exact .inl rfl
  · exact .inr ⟨1, rfl⟩

theorem witness_BufferRefinesEncodeBuffer :
    (atBoundary.cnt = 0 ∧ atBoundary.k = atBoundary.w) ∧
    ((committing legacyCeiling).cnt = 0 ∧ (committing legacyCeiling).k = (committing legacyCeiling).w) := by
  decide

theorem witness_BufferLengthLaw :
    atBoundary.cnt = 0 ∧ ([1, 2, 3, 4, 5, 6, 7] : List SampleBits).length < 8 := by decide

theorem witness_RemainderIsDropped :
    atBoundary.cnt = 0 ∧ atBoundary.k = atBoundary.w ∧ atBoundary.config.remainderCommits = false ∧
    (committing atBoundary).k = (committing atBoundary).w ∧
    (committing atBoundary).config.remainderCommits = true := by decide

theorem witness_BuffersContinueSession :
    atBoundary.cnt = 0 ∧ atBoundary.k = atBoundary.w ∧ 8 ∣ (List.replicate 8 (100 : SampleBits)).length ∧
    8 ∣ ([] : List SampleBits).length := by decide

theorem witness_CompleteRunLeavesNothingPending :
    insideGroup.Inv ∧ runComplete [.endBuffer] atBoundary = true ∧
    runComplete [.sample 80] atBoundary = true ∧ runComplete [.sample 80] insideGroup = false := by decide

theorem witness_StepPerformsDecodedCommand :
    ({ atBoundary with input := [⟨false, true, 0x20A⟩] } : State).input = ⟨false, true, 0x20A⟩ :: [] ∧
    decode 0x20A = some (.sample 10) ∧ 0x300 < 1024 ∧ decodeTableWord 16 0x300 = some .endBuffer := by decide

theorem witness_ResetHasPriorityAndStartsSession :
    ({ insideGroup with input := [⟨true, true, 0x1FF⟩] } : State).input = ⟨true, true, 0x1FF⟩ :: [] := by decide

theorem witness_IdleStepIsNop :
    decode 0x0FF = some .nop ∧
    ({ insideGroup with input := [⟨false, false, 0x1FF⟩] } : State).input = ⟨false, false, 0x1FF⟩ :: [] ∧
    insideGroup.input = [] := by decide

/-- The ends of the two reserved ranges are refused, and so is every run through them. -/
theorem witness_ReservedWordsRefuseRun :
    (∀ w ∈ [0x102, 0x1FF, 0x301, 0x3FF],
      step (insideGroup.withInput [Edge.ofWord w]) = .refused .reservedEncoding) ∧
    runEdges [Edge.ofWord 0x20A, Edge.ofWord 0x1FE] State.reset = .refused .reservedEncoding := by
  refine ⟨fun w hw => ?_, rfl⟩
  simp only [List.mem_cons, List.not_mem_nil, or_false] at hw
  rcases hw with rfl | rfl | rfl | rfl <;> rfl

theorem witness_AllowedRunsReachTheirEnd :
    ∀ e ∈ [Edge.idle, ⟨true, true, 0x1FF⟩, Edge.ofWord 0x27F, Edge.ofWord 0x101], e.allowed = true := by decide

/-- A step that emits, and one at `cnt == 7` that does not. -/
theorem witness_OnlyEighthSampleEmits :
    (∃ t, step (beforeEighth.withFetchWord 16 0x250) = .next t ∧ t.outValid = true) ∧
    (∃ t, step (beforeEighth.withFetchWord 16 0x300) = .next t ∧ t.outValid = false) :=
  ⟨⟨_, rfl, by decide⟩, ⟨_, rfl, by decide⟩⟩

/-- The mode changed by `START` and by reset; `W` changed by the rollback. -/
theorem witness_OnlyStartAndResetWriteMode :
    (∃ t, step (insideGroup.withFetchWord 16 0x101) = .next t ∧ t.mode ≠ insideGroup.mode) ∧
    (∃ t, step (legacyCeiling.withInput [⟨true, false, 0⟩]) = .next t ∧ t.mode ≠ legacyCeiling.mode) ∧
    (∃ t, step (insideGroup.withFetchWord 16 0x300) = .next t ∧ (insideGroup.withFetchWord 16 0x300).Inv ∧
      t.w ≠ insideGroup.w) :=
  ⟨⟨_, rfl, by decide⟩, ⟨_, rfl, by decide⟩, ⟨_, rfl, by decide, by decide⟩⟩

theorem witness_EmittedBytesStayEmitted :
    ∃ t, runEdges ([Edge.ofWord 0x250] ++ [Edge.ofWord 0x300]) beforeEighth = .next t ∧
      t.output = [0xFF] := ⟨_, rfl, by decide⟩

theorem witness_DecodeInvertsEncode :
    decode 0x280 = some (.sample 0x80) ∧ (Instr.sample 0x80) ≠ .nop := by decide

/-- The two ends of each half of the samples (30_encoding.md R47). -/
theorem witness_StartSampleEndWords :
    decode 0x200 = some (.sample 0x00) ∧ decode 0x27F = some (.sample 0x7F) ∧
    decode 0x280 = some (.sample 0x80) ∧ decode 0x2FF = some (.sample 0xFF) := by decide

theorem witness_PseudoCommandsExpand :
    (∀ n ∈ ([-128, 0, 127] : List Int), -128 ≤ n ∧ n ≤ 127) := by decide

theorem witness_OutOfRangeSampleRefused :
    ((128 : Int) < -128 ∨ 127 < (128 : Int)) ∧ ((-129 : Int) < -128 ∨ 127 < (-129 : Int)) ∧
    (128 : Int) ∈ [0, 128] ∧ TextLine.sample 128 ∈ [.nop, .sample 128] ∧
    (TextLine.sample 128).expand = none := by decide

/-- A state inside a group and one before its eighth sample, each with a step to take. -/
theorem witness_StepKeepsInvariant :
    (insideGroup.withFetchWord 16 0x300).Inv ∧ (beforeEighth.withFetchWord 16 0x250).Inv ∧
    (∃ t, step (beforeEighth.withFetchWord 16 0x250) = .next t) ∧
    (∃ t, step (insideGroup.withFetchWord 16 0x300) = .next t) :=
  ⟨by decide, by decide, ⟨_, rfl⟩, ⟨_, rfl⟩⟩

/-- Two copies with different registers and differently placed idle steps. -/
theorem witness_SessionIsDeterministic :
    insideGroup.config = legacyCeiling.config ∧
    [Edge.idle, Edge.ofWord 0x20A].filter (fun e => !e.isIdle) =
      [Edge.ofWord 0x20A, Edge.ofWord 0x0FF].filter (fun e => !e.isIdle) ∧
    (∃ t, runEdges (Edge.ofInstr (.start .legacy) :: [Edge.idle, Edge.ofWord 0x20A]) insideGroup = .next t) :=
  ⟨by decide, by decide, ⟨_, rfl⟩⟩

theorem witness_BoundaryAccIsInvisible : ({ atBoundary with acc := 0xA5 } : State).cnt = 0 := by decide

theorem witness_CheckpointIsInvisibleWhenCommitting :
    (committing insideGroup).config.remainderCommits = true := by decide

theorem witness_LastBitIsInvisibleInCurrentMode : insideGroup.mode = .current := by decide

theorem witness_OutputHistoryIsNeverRead :
    ∃ t, runEdges [Edge.ofWord 0x250] { beforeEighth with output := [0x2A] } = .next t := ⟨_, rfl⟩

theorem witness_CopiesShareNothing :
    ∃ bs, stepCopy 1 [insideGroup, beforeEighth.withFetchWord 16 0x250] = some (.next bs) := ⟨_, rfl⟩

end Sys2Proof.Tests
end

section
/-! Reset and the construction of a session: the registers they leave (spec/10_state.md R19). -/

namespace Sys2Proof.Machine

/-- `START` and reset write all nine registers; none of the old ones has a part in the result. -/
@[simp] theorem constructSession_registers (m : Mode) (s : State) :
    (constructSession m s).registers = ⟨m, freshCodec s.config, 0, 0, freshCodec s.config⟩ := rfl

/-- 70_reset_and_hazards.md R104: reset is `START RESET_MODE`. -/
@[simp] theorem hardwareReset_registers (s : State) :
    (hardwareReset s).registers =
      ⟨s.config.resetMode, freshCodec s.config, 0, 0, freshCodec s.config⟩ :=
  constructSession_registers s.config.resetMode s

/-- `rst` has priority over the command (60_exceptions.md R97). -/
theorem Edge.action_of_rst {e : Edge} (h : e.rst = true) : e.action = .reset := if_pos h

/-- A step at an edge with `rst = 1` is a hardware reset, whatever else the pins carry. -/
theorem step_of_rst {s : State} (h : s.presentedEdge.rst = true) :
    step s = .next (hardwareReset s.beginStep) := by
  rw [step, Edge.action_of_rst h]

/-- Settles O1: the reset values by evaluation, the other two by the registers a new session has. -/
theorem registerValuesAfterResetAndStart : Obligations.RegisterValuesAfterResetAndStart := by
  refine ⟨rfl, rfl, fun s => ⟨fun m => ?start, fun hrst => ?reset⟩⟩
  case start => exact ⟨_, exec_start m s, constructSession_registers m s⟩
  case reset => exact ⟨_, step_of_rst hrst, hardwareReset_registers s.beginStep⟩

end Sys2Proof.Machine
end

section
/-! The command words (spec/30_encoding.md R42 to R48): the fields of a word, the ranges into which the
decoder and the opcode map cut the 1024 words, and how many words a range has. -/

namespace Sys2Proof

/-! ### The fields of a word -/

theorem opField_eq_iff (w : CommandWord) (op : BitVec 2) :
    opField w = op ↔ w.toNat / 256 = op.toNat := by
  have := w.isLt
  rw [← BitVec.toNat_inj, opField, BitVec.extractLsb'_toNat, Nat.shiftRight_eq_div_pow]
  omega

theorem dataField_toNat (w : CommandWord) : (dataField w).toNat = w.toNat % 256 := by
  simp [dataField]

theorem dataField_eq_iff (w : CommandWord) (data : BitVec 8) :
    dataField w = data ↔ w.toNat % 256 = data.toNat := by
  rw [← BitVec.toNat_inj, dataField_toNat]

theorem startPadding_eq_zero_iff (data : BitVec 8) : startPadding data = 0 ↔ data.toNat < 2 := by
  have := data.isLt
  rw [← BitVec.toNat_inj, startPadding, BitVec.extractLsb'_toNat, Nat.shiftRight_eq_div_pow]
  simp only [BitVec.ofNat_eq_ofNat, BitVec.toNat_ofNat]
  omega

@[simp] theorem opField_commandWord (op : BitVec 2) (data : BitVec 8) :
    opField (commandWord op data) = op := BitVec.extractLsb'_append_eq_left

/-! ### The guards of the decoder as ranges of words -/

theorem nopGuard_iff (w : CommandWord) : opField w = 0b00#2 ↔ w.toNat < 0x100 := by
  rw [opField_eq_iff, BitVec.toNat_ofNat]
  omega

theorem startGuard_iff (w : CommandWord) :
    opField w = 0b01#2 ∧ startPadding (dataField w) = 0 ↔ 0x100 ≤ w.toNat ∧ w.toNat < 0x102 := by
  rw [opField_eq_iff, startPadding_eq_zero_iff, dataField_toNat, BitVec.toNat_ofNat]
  omega

theorem sampleGuard_iff (w : CommandWord) : opField w = 0b10#2 ↔ 0x200 ≤ w.toNat ∧ w.toNat < 0x300 := by
  rw [opField_eq_iff, BitVec.toNat_ofNat]
  omega

theorem endGuard_iff (w : CommandWord) : opField w = 0b11#2 ∧ dataField w = 0 ↔ w.toNat = 0x300 := by
  rw [opField_eq_iff, dataField_eq_iff]
  simp only [BitVec.ofNat_eq_ofNat, BitVec.toNat_ofNat]
  omega

/-- The decoder as a map of the 1024 word numbers. -/
theorem decode_eq_ranges (w : CommandWord) :
    decode w =
      if w.toNat < 0x100 then some .nop
      else if 0x100 ≤ w.toNat ∧ w.toNat < 0x102 then some (.start (modeOfBit ((dataField w).getLsbD 0)))
      else if 0x200 ≤ w.toNat ∧ w.toNat < 0x300 then some (.sample (dataField w))
      else if w.toNat = 0x300 then some .endBuffer
      else none := by
  simp only [decode, nopGuard_iff, startGuard_iff, sampleGuard_iff, endGuard_iff]

/-! ### The words of each command, and the words of none -/

theorem decode_eq_nop_iff (w : CommandWord) : decode w = some .nop ↔ opField w = 0b00#2 := by
  unfold decode
  split_ifs <;> simp_all

theorem exists_decode_eq_start_iff (w : CommandWord) :
    (∃ m, decode w = some (.start m)) ↔ 0x100 ≤ w.toNat ∧ w.toNat < 0x102 := by
  rw [decode_eq_ranges]
  split_ifs <;> simp <;> omega

theorem decode_eq_sample_iff (w : CommandWord) (x : SampleBits) :
    decode w = some (.sample x) ↔ opField w = 0b10#2 ∧ dataField w = x := by
  unfold decode
  split_ifs <;> simp_all

theorem decode_eq_endBuffer_iff (w : CommandWord) : decode w = some .endBuffer ↔ w.toNat = 0x300 := by
  rw [decode_eq_ranges]
  split_ifs <;> simp <;> omega

/-- The decoder answers `RESERVED` on exactly the two ranges of 30_encoding.md R48. -/
theorem decode_eq_none_iff (w : CommandWord) :
    decode w = none ↔
      (0x102 ≤ w.toNat ∧ w.toNat ≤ 0x1FF) ∨ (0x301 ≤ w.toNat ∧ w.toNat ≤ 0x3FF) := by
  have := w.isLt
  rw [decode_eq_ranges]
  split_ifs <;> simp <;> omega

/-- The word of a sample as a number (30_encoding.md R47). -/
theorem decode_eq_sample_iff_toNat (w : CommandWord) (x : SampleBits) :
    decode w = some (.sample x) ↔ w.toNat = 0x200 + x.toNat := by
  have := x.isLt
  rw [decode_eq_sample_iff, opField_eq_iff, dataField_eq_iff, BitVec.toNat_ofNat]
  omega

/-! ### The opcode map by ranges of words -/

/-- A mask that keeps all bits from bit `k` up selects the `2 ^ k` words that follow the row's pattern. -/
theorem OpcodeRow.selects_iff_of_mask {r : OpcodeRow} (k : Nat) (hm : r.mask = BitVec.allOnes 10 <<< k)
    (hp : 2 ^ k ∣ r.pattern.toNat) (w : CommandWord) :
    r.selects w = true ↔ r.pattern.toNat ≤ w.toNat ∧ w.toNat < r.pattern.toNat + 2 ^ k := by
  obtain ⟨q, hq⟩ := hp
  have hpos : 0 < 2 ^ k := by positivity
  have hle : w.toNat / 2 ^ k * 2 ^ k < 2 ^ 10 := (Nat.div_mul_le_self _ _).trans_lt w.isLt
  have hand : (w &&& r.mask).toNat = w.toNat / 2 ^ k * 2 ^ k := by
    rw [hm, ← BitVec.shiftLeft_ushiftRight, BitVec.toNat_shiftLeft, BitVec.toNat_ushiftRight,
      Nat.shiftRight_eq_div_pow, Nat.shiftLeft_eq, Nat.mod_eq_of_lt hle]
  calc r.selects w = true
      ↔ w.toNat / 2 ^ k * 2 ^ k = q * 2 ^ k := by
        rw [selects, beq_iff_eq, ← BitVec.toNat_inj, hand, hq, Nat.mul_comm q]
    _ ↔ w.toNat / 2 ^ k = q := Nat.mul_left_inj hpos.ne'
    _ ↔ r.pattern.toNat ≤ w.toNat ∧ w.toNat < r.pattern.toNat + 2 ^ k := by
        rw [Nat.div_eq_iff hpos, hq, Nat.mul_comm q]
        omega

/-- How many words a row of the map covers: the bits its mask leaves free vary. -/
def OpcodeRow.size (r : OpcodeRow) : Nat := 2 ^ 10 - r.mask.toNat

/-- The words of a row of R44 follow one another, from its pattern on. -/
theorem OpcodeRow.selects_iff_range {r : OpcodeRow} (hr : r ∈ opcodeRows) (w : CommandWord) :
    r.selects w = true ↔ r.pattern.toNat ≤ w.toNat ∧ w.toNat < r.pattern.toNat + r.size := by
  simp only [opcodeRows, List.mem_cons, List.not_mem_nil, or_false] at hr
  obtain rfl | rfl | rfl | rfl := hr
  · exact selects_iff_of_mask 8 (by decide) (by decide) w
  · exact selects_iff_of_mask 1 (by decide) (by decide) w
  · exact selects_iff_of_mask 8 (by decide) (by decide) w
  · exact selects_iff_of_mask 0 (by decide) (by decide) w

/-- A row selects exactly the words that decode to its command (30_encoding.md R44). -/
theorem OpcodeRow.selects_iff_decode {r : OpcodeRow} (hr : r ∈ opcodeRows) (w : CommandWord) :
    r.selects w = true ↔ (decode w).map Instr.mnemonic = some r.mnemonic := by
  rw [selects_iff_range hr, decode_eq_ranges]
  simp only [opcodeRows, List.mem_cons, List.not_mem_nil, or_false] at hr
  obtain rfl | rfl | rfl | rfl := hr <;>
    split_ifs <;> simp [Instr.mnemonic, size] <;> omega

/-- The rows a word selects: the one of its command, or none for a reserved word. -/
theorem filter_selects (w : CommandWord) :
    opcodeRows.filter (fun r => r.selects w) =
      opcodeRows.filter (fun r => (decode w).map Instr.mnemonic = some r.mnemonic) :=
  List.filter_congr fun r hr => by
    rw [Bool.eq_iff_iff, decide_eq_true_iff, OpcodeRow.selects_iff_decode hr]

/-- The four mnemonics differ, so the command names its row. -/
theorem map_filter_mnemonic (o : Option Instr) :
    (opcodeRows.filter (fun r => o.map Instr.mnemonic = some r.mnemonic)).map OpcodeRow.mnemonic =
      (o.map Instr.mnemonic).toList := by
  rcases o with _ | (_ | m | x | _) <;> rfl

/-! ### How many words -/

/-- The count of a property of the words below `n`, from the set of numbers that have it. -/
theorem countP_range_eq_card {p : Nat → Bool} {n : Nat} {S : Finset Nat}
    (hS : ∀ k, k ∈ S ↔ k < n ∧ p k = true) : (List.range n).countP p = S.card := by
  have hfilter : {k ∈ Finset.range n | p k = true} = S := by
    ext k
    rw [Finset.mem_filter, Finset.mem_range, hS]
  rw [← hfilter, ← Nat.count_eq_card_filter_range]
  simp [Nat.count]

/-- The rows' counts in R44: a row covers as many words as its mask leaves free. -/
theorem OpcodeRow.countP_selects {r : OpcodeRow} (hr : r ∈ opcodeRows) :
    (List.range 1024).countP (fun n => r.selects (BitVec.ofNat 10 n)) = r.size := by
  have hfits : ∀ r ∈ opcodeRows, r.pattern.toNat + r.size ≤ 1024 := by decide
  rw [countP_range_eq_card (S := Finset.Ico r.pattern.toNat (r.pattern.toNat + r.size)),
    Nat.card_Ico, Nat.add_sub_cancel_left]
  intro k
  have := hfits r hr
  rw [Finset.mem_Ico, selects_iff_range hr, BitVec.toNat_ofNat]
  omega

/-- The two reserved ranges of 30_encoding.md R48 hold 254 and 255 words. -/
theorem countP_decode_none :
    (List.range 1024).countP (fun n => (decode (BitVec.ofNat 10 n)).isNone) = 509 := by
  have hdisjoint : Disjoint (Finset.Icc 0x102 0x1FF) (Finset.Icc 0x301 0x3FF) :=
    Finset.disjoint_left.2 fun k h1 h2 => by
      rw [Finset.mem_Icc] at h1 h2
      omega
  rw [countP_range_eq_card (S := Finset.Icc 0x102 0x1FF ∪ Finset.Icc 0x301 0x3FF),
    Finset.card_union_of_disjoint hdisjoint, Nat.card_Icc, Nat.card_Icc]
  intro k
  rw [Finset.mem_union, Finset.mem_Icc, Finset.mem_Icc, Option.isNone_iff_eq_none, decode_eq_none_iff,
    BitVec.toNat_ofNat]
  omega

end Sys2Proof
end

section
/-! The statements on the encoding (spec/30_encoding.md R44 to R48) and the steps they speak of. -/

namespace Sys2Proof.Machine

/-! ### Edges that carry no command, and edges that carry a reserved word -/

theorem Edge.action_of_no_command {e : Edge} (hr : e.rst = false) (hv : e.cmdValid = false) :
    e.action = .perform .nop := by simp [Edge.action, hr, hv]

theorem Edge.action_eq_reserved_iff (e : Edge) :
    e.action = .reserved ↔ e.rst = false ∧ e.cmdValid = true ∧ decode e.cmd = none := by
  unfold Edge.action
  cases e.rst <;> cases e.cmdValid <;> cases decode e.cmd <;> simp

/-- A step at which the host presents no command only passes (30_encoding.md R45). -/
theorem step_of_no_command {s : State} (hr : s.presentedEdge.rst = false)
    (hv : s.presentedEdge.cmdValid = false) : step s = .next s.beginStep := by
  rw [step, Edge.action_of_no_command hr hv]
  exact exec_nop s.beginStep

/-- A step is refused only for a reserved word (60_exceptions.md R94). -/
theorem step_eq_refused_iff (s : State) (r : Refusal) :
    step s = .refused r ↔ r = .reservedEncoding ∧ s.presentedEdge.action = .reserved := by
  obtain ⟨ha, hs⟩ | ⟨i, ha, hs⟩ | ⟨ha, hs⟩ := step_cases s <;> simp [ha, hs, eq_comm]

/-- A refusal is the outcome of every run that goes on from it (60_exceptions.md R94). -/
theorem runEdges_append_of_refused {es : List Edge} {s : State} {r : Refusal}
    (h : runEdges es s = .refused r) (fs : List Edge) : runEdges (es ++ fs) s = .refused r := by
  rw [runEdges_append, h]

/-! ### The statements -/

/-- Settles O30: a step is refused only for the word, and the words without a meaning are the two ranges. -/
theorem reservedWordsRefuseRun : Obligations.ReservedWordsRefuseRun := by
  refine ⟨fun s r => ?_, fun s es fs r h => runEdges_append_of_refused h fs, countP_decode_none⟩
  rw [step_eq_refused_iff, Edge.action_eq_reserved_iff, decode_eq_none_iff]

/-- Settles O38, by the word numbers of each command. -/
theorem startSampleEndWords : Obligations.StartSampleEndWords := by
  refine ⟨fun w => ?start, by decide, by decide, fun w => ?sample, decode_eq_sample_iff_toNat,
    fun w x hx => ?value, fun w => ?endWord⟩
  case start =>
    rw [exists_decode_eq_start_iff, ← BitVec.toNat_inj, ← BitVec.toNat_inj]
    simp only [BitVec.ofNat_eq_ofNat, BitVec.toNat_ofNat]
    omega
  case sample =>
    simp only [decode_eq_sample_iff, exists_and_left, exists_eq', and_true]
    rfl
  case value =>
    have hw : w.toNat = 0x200 + x.toNat := (decode_eq_sample_iff_toNat w x).1 hx
    have := x.isLt
    rw [BitVec.toInt_eq_toNat_cond]
    split_ifs <;> omega
  case endWord =>
    rw [decode_eq_endBuffer_iff, ← BitVec.toNat_inj]
    rfl

/-- Settles O29: `NOP` is decided by the `op` field, and an edge without a command performs it. -/
theorem idleStepIsNop : Obligations.IdleStepIsNop := by
  refine ⟨fun data => (decode_eq_nop_iff _).2 (opField_commandWord _ data),
    fun w => (decode_eq_nop_iff w).1, rfl, fun s w es h => ?idle⟩
  have hedge : s.presentedEdge.rst = false ∧ s.presentedEdge.cmdValid = false ∧ s.input.tail = es := by
    obtain h | ⟨h, rfl⟩ := h <;> simp [State.presentedEdge, Edge.idle, h]
  obtain ⟨hrst, hvalid, htail⟩ := hedge
  rw [step_of_no_command hrst hvalid, State.beginStep, htail]

/-- Settles O37: a row selects the words that decode to its command, and the commands differ. -/
theorem opcodeRowsDisjoint : Obligations.OpcodeRowsDisjoint := by
  refine ⟨rfl, fun r w => beq_iff_eq, fun w => ?disjoint, fun w => ?decides, ?counts⟩
  case disjoint =>
    rw [← List.length_map OpcodeRow.mnemonic, filter_selects, map_filter_mnemonic]
    exact Option.length_toList_le
  case decides => rw [filter_selects, map_filter_mnemonic, Option.head?_toList]
  case counts =>
    calc _ = opcodeRows.map (fun r => (r.mnemonic, r.size)) :=
          List.map_congr_left fun r hr => by rw [OpcodeRow.countP_selects hr]
      _ = _ := rfl

end Sys2Proof.Machine
end

section
/-! `SAMPLE` in the numbers of the spec (spec/40_quantizer.md R54 to R63): the constants of each mode put
into the rounded moves, and the statements on the decision, the level and the response. -/

namespace Sys2Proof.Machine

/-! ### The decision -/

theorem decideBit_false_of_tie {s l : Int} (h : s = l) (hl : l ≠ 127) : decideBit s l = false := by
  simp [decideBit, h, hl]

/-! ### The rounded moves with the constants of 00_scope.md R6 -/

theorem rawLevel_current (bit : Bool) (l r : Int) :
    rawLevel (modeConstants .current) bit l r = l + (r * (levelTarget bit - l) + 512) / 1024 := rfl

theorem rawLevel_legacy (bit : Bool) (l r : Int) :
    rawLevel (modeConstants .legacy) bit l r = l + (r * (levelTarget bit - l) + 128) / 256 := rfl

theorem respTarget_legacy (same : Bool) :
    respTarget (modeConstants .legacy) same = if same then 255 else 0 := rfl

theorem rawResponse_legacy (same : Bool) (r : Int) :
    rawResponse (modeConstants .legacy) same r =
      r + ((if same then 7 else 20) * ((if same then 255 else 0) - r) + 128) / 256 := rfl

/-- The range invariant of `response` (10_state.md R18) asks something of `legacy` mode only: in
`current` mode the ten bits of the register are the range. -/
theorem CodecState.inRange_iff (m : Mode) (w : CodecState) :
    w.InRange m ↔ (m = .legacy → w.response.toNat ≤ 255) := by
  have hceil : respMax (modeConstants .current) = 1023 ∧ respMax (modeConstants .legacy) = 255 := by decide
  have := response_toNat_range w.response
  cases m with
  | current => simp only [InRange, hceil, reduceCtorEq, false_implies, iff_true]; omega
  | legacy => simp only [InRange, hceil, forall_const]; omega

/-! ### The statements -/

/-- Settles O7: the new flag is the decision, whose two clauses R54 gives. -/
theorem sampleDecidesByLevel : Obligations.SampleDecidesByLevel := by
  intro x s
  refine ⟨_, exec_sample x s, ?iff, fun htie hl => ?tie⟩ <;> rw [afterSample_w, quantize_lastBit]
  case iff => exact decideBit_true_iff _ _
  case tie => exact decideBit_false_of_tie htie hl

/-- Settles O8: within the mode's ceiling the register holds the exact new level, whose rounded move has
the constants of the mode. -/
theorem sampleMovesLevel : Obligations.SampleMovesLevel := by
  intro x s hresp
  refine ⟨_, exec_sample x s, ?bit, ?level⟩ <;> rw [afterSample_w]
  case bit => exact quantize_lastBit s.mode s.w x
  case level =>
    rw [quantize_level_toInt ((s.w.inRange_iff s.mode).2 hresp), nextLevel]
    cases s.mode with
    | current => rw [rawLevel_current]; rfl
    | legacy => rw [rawLevel_legacy]; rfl

/-- Settles O9: the register holds the exact new response, which `current` mode only clamps and `legacy`
mode only adapts. -/
theorem sampleAdaptsResponse : Obligations.SampleAdaptsResponse := by
  intro x s
  refine ⟨_, exec_sample x s, fun hm => ?current, fun hm => ?legacy⟩ <;>
    simp only [afterSample_w, quantize_lastBit, quantize_response_toNat, hm]
  case current => exact nextResponse_current _ _ _
  case legacy =>
    rw [nextResponse_legacy, adaptedResponse, rawResponse_legacy, respTarget_legacy]
    rfl

end Sys2Proof.Machine
end

section
/-! The packer (spec/41_bit_packer.md R71, R73, R74): one `SAMPLE` at `cnt == 7` and below it, and where
the counter and the checkpoint stand after any number of samples. -/

namespace Sys2Proof.Machine

/-! ### A list of samples -/

/-- The state after a list of `SAMPLE` commands. -/
def afterSamples (xs : List SampleBits) (s : State) : State := xs.foldl (fun t x => afterSample x t) s

@[simp] theorem afterSamples_nil (s : State) : afterSamples [] s = s := rfl

@[simp] theorem afterSamples_concat (xs : List SampleBits) (x : SampleBits) (s : State) :
    afterSamples (xs ++ [x]) s = afterSample x (afterSamples xs s) := List.foldl_concat ..

theorem runCommands_map_sample (xs : List SampleBits) (s : State) :
    runCommands (xs.map .sample) s = .next (afterSamples xs s) := by
  rw [runCommands_total, List.foldl_map]
  rfl

/-- Samples move `W` by the fold and leave the mode alone. -/
theorem afterSamples_mode_w (xs : List SampleBits) (s : State) :
    (afterSamples xs s).mode = s.mode ∧ (afterSamples xs s).w = codecFold s.mode s.w xs := by
  obtain ⟨t, hrun, hw, hmode, -⟩ := runCommands_samples_w xs s
  rw [runCommands_map_sample, Host.Outcome.next.injEq] at hrun
  exact hrun ▸ ⟨hmode, hw⟩

/-- The counter counts the samples and wraps after every eighth (10_state.md R14). -/
theorem afterSamples_cnt_toNat (xs : List SampleBits) (s : State) :
    (afterSamples xs s).cnt.toNat = (s.cnt.toNat + xs.length) % 8 := by
  induction xs using List.reverseRecOn with
  | nil => exact (Nat.mod_eq_of_lt s.cnt.isLt).symm
  | append_singleton xs x ih =>
    rw [afterSamples_concat, afterSample_cnt, BitVec.toNat_add, ih, List.length_append]
    exact Nat.mod_add_mod _ 8 1

/-- From a byte boundary `K` follows `W` up to the last whole group of eight: a further sample either
completes the group, and `K` becomes the whole fold, or leaves `K` and the number of groups as they were
(41_bit_packer.md R74). -/
theorem afterSamples_k (xs : List SampleBits) {s : State} (hcnt : s.cnt = 0) (hk : s.k = s.w) :
    (afterSamples xs s).k = codecFold s.mode s.w (xs.take (8 * (xs.length / 8))) := by
  induction xs using List.reverseRecOn with
  | nil => exact hk
  | append_singleton xs x ih =>
    have hlen : (xs ++ [x]).length = xs.length + 1 := List.length_append
    have hlast : (afterSamples xs s).cnt = 7 ↔ xs.length % 8 = 7 := by
      rw [← cnt_toNat_eq_seven, afterSamples_cnt_toNat, cnt_toNat_eq_zero.2 hcnt, Nat.zero_add]
    rw [afterSamples_concat, afterSample_k]
    split_ifs with h7
    · have hall : 8 * ((xs ++ [x]).length / 8) = (xs ++ [x]).length := by
        have := hlast.1 h7
        omega
      obtain ⟨hmode, hw⟩ := afterSamples_mode_w xs s
      rw [hall, List.take_length, codecFold_append, hmode, hw]
      rfl
    · have hgroups : (xs ++ [x]).length / 8 = xs.length / 8 := by
        have := mt hlast.2 h7
        omega
      rw [ih, hgroups, List.take_append_of_le_length (Nat.mul_div_le _ _)]

/-! ### The statements -/

/-- Settles O19: the checkpoint of any number of samples from the boundary that `START` makes, and that of
a single sample. -/
theorem checkpointIsLastByteBoundary : Obligations.CheckpointIsLastByteBoundary := by
  refine ⟨fun m s xs => ⟨afterSamples xs (constructSession m s), ?run, ?w, ?k⟩,
    fun x s => ⟨_, exec_sample x s, ?single⟩⟩
  case run => rw [runCommands_cons]; exact runCommands_map_sample xs _
  case w => exact (afterSamples_mode_w xs (constructSession m s)).2
  case k => exact afterSamples_k xs (constructSession_cnt m s) rfl
  case single => rw [afterSample_k, afterSample_w]

/-- Settles O17: the packed byte with the new decision, and the two things `SAMPLE` does with it. -/
theorem samplePacksAndEmits : Obligations.SamplePacksAndEmits := by
  intro x s
  refine ⟨_, exec_sample x s, pack s.acc (afterSample x s).w.lastBit, rfl, pack_toNat _ _,
    fun h7 => ?last, fun hlt => ?inside⟩ <;> rw [afterSample_w]
  case last =>
    rw [afterSample_last (cnt_toNat_eq_seven.1 h7)]
    exact ⟨rfl, rfl, rfl, rfl, rfl⟩
  case inside =>
    have hne : s.cnt ≠ 7 := fun h => hlt.ne (cnt_toNat_eq_seven.2 h)
    rw [afterSample_inside hne]
    exact ⟨rfl, rfl, rfl, cnt_add_one_toNat hne, rfl⟩

end Sys2Proof.Machine
end

section
/-! The commands of the top level (spec/42_session_buffer.md R78 to R82): a step depends on its edge by the
action alone, the words of `START`, and when `END` has nothing to settle. -/

namespace Sys2Proof.Machine

/-! ### The step and the words -/

/-- Two edges that ask for the same make the same step. -/
theorem step_withInput_cons_congr {e f : Edge} (h : e.action = f.action) (s : State) (es : List Edge) :
    step (s.withInput (e :: es)) = step (s.withInput (f :: es)) := by
  rw [step, step, presentedEdge_cons, presentedEdge_cons, h]
  rfl

theorem Edge.action_of_word {e : Edge} {i : Instr} (hr : e.rst = false) (hv : e.cmdValid = true)
    (hd : decode e.cmd = some i) : e.action = .perform i := by
  simp [Edge.action, hr, hv, hd]

/-- `START` has no word but the canonical one of its mode (30_encoding.md R46). -/
theorem decode_eq_start_iff (w : CommandWord) (m : Mode) :
    decode w = some (.start m) ↔ w = encode (.start m) := by
  obtain ⟨hwords, hcurrent, hlegacy, -⟩ := startSampleEndWords
  constructor
  · intro h
    obtain rfl | rfl := (hwords w).1 ⟨m, h⟩
    · rw [hcurrent] at h; cases h; rfl
    · rw [hlegacy] at h; cases h; rfl
  · rintro rfl
    cases m with
    | current => exact hcurrent
    | legacy => exact hlegacy

/-! ### What the commands leave -/

theorem runCommands_replicate_nop (n : Nat) (s : State) :
    runCommands (List.replicate n .nop) s = .next s := by
  induction n with
  | zero => rfl
  | succ n ih => rwa [List.replicate_succ, runCommands_cons]

/-- Only `START` writes `MODE` (10_state.md R15). -/
theorem afterInstr_mode {i : Instr} (h : ∀ m, i ≠ .start m) (s : State) :
    (afterInstr i s).mode = s.mode := by
  cases i with
  | nop => rfl
  | start m => exact absurd rfl (h m)
  | sample x => exact afterSample_mode x s
  | endBuffer => exact settleRemainder_mode s

/-- With `K == W` there is nothing to settle, in either configuration. -/
theorem settleRemainder_of_k_eq_w {s : State} (h : s.k = s.w) : settleRemainder s = s := by
  cases hc : s.config.remainderCommits with
  | true =>
    rw [settleRemainder_commits hc]
    exact congrArg (fun k => { s with k := k }) h.symm
  | false =>
    rw [settleRemainder_drops hc]
    exact congrArg (fun w => { s with w := w }) h

/-- `END` leaves `K == W` (10_state.md R17). -/
theorem settleRemainder_k_eq_w (s : State) : (settleRemainder s).k = (settleRemainder s).w := by
  rw [settleRemainder_k, settleRemainder_w]

/-- `END` with `K == W` does no more than discard the incomplete byte. -/
theorem exec_endBuffer_of_k_eq_w {s : State} (h : s.k = s.w) :
    exec .endBuffer s = .next (clearPacker s) := by
  rw [exec_endBuffer, settleRemainder_of_k_eq_w h]

/-! ### The statements -/

/-- Settles O2: `NOP` is the identity, and an edge without a command asks for it. -/
theorem nopChangesNothing : Obligations.NopChangesNothing := by
  refine ⟨exec_nop, runCommands_replicate_nop, fun w => ?words, rfl, fun s w w' es hw' => ?step⟩
  case words => rw [decode_eq_nop_iff, nopGuard_iff]
  case step =>
    have hd : decode w' = some .nop := by rwa [decode_eq_nop_iff, nopGuard_iff]
    have hnone : Edge.action ⟨false, false, w⟩ = .perform .nop := Edge.action_of_no_command rfl rfl
    have hword : Edge.action ⟨false, true, w'⟩ = .perform .nop := Edge.action_of_word rfl rfl hd
    exact step_withInput_cons_congr (hnone.trans hword.symm) s es

/-- Settles O3: `START` writes all nine registers from the parameters and its operand, so that nothing of
an earlier `START` is left. -/
theorem startBeginsFreshSession : Obligations.StartBeginsFreshSession := by
  refine ⟨exec_start, fun w => decode_eq_start_iff w .current, fun w => decode_eq_start_iff w .legacy,
    fun m m' s => ?twice, fun i s t ht hi => ?mode⟩
  case twice => rw [runCommands_cons]; rfl
  case mode =>
    rw [exec_eq_next, Host.Outcome.next.injEq] at ht
    exact ht ▸ afterInstr_mode hi s

/-- Settles O4: the two configurations by the two things `END` can do, and the corner cases because
`START`, reset and `END` itself leave `K == W`. -/
theorem endSettlesRemainder : Obligations.EndSettlesRemainder := by
  obtain ⟨-, -, -, -, -, -, hword⟩ := startSampleEndWords
  refine ⟨fun s hc => ?commits, fun s hc => ?drops, hword, fun m s => ?afterStart,
    exec_endBuffer_of_k_eq_w (s := State.reset) rfl, fun s => ?twice⟩
  case commits => rw [exec_endBuffer, settleRemainder_commits hc]; rfl
  case drops => rw [exec_endBuffer, settleRemainder_drops hc]; rfl
  case afterStart => rw [runCommands_cons]; exact exec_endBuffer_of_k_eq_w (s := constructSession m s) rfl
  case twice =>
    rw [runCommands_cons]
    exact exec_endBuffer_of_k_eq_w (settleRemainder_k_eq_w s)

end Sys2Proof.Machine
end

section
/-! Buffers (spec/42_session_buffer.md R85, R86): the state a buffer leaves, the samples of its remainder,
and why the accumulator of a byte boundary leaves no trace in it. -/

namespace Sys2Proof.Machine

/-! ### The state after a buffer -/

/-- The state after one encode call: the samples, then `END`. -/
def afterBuffer (xs : List SampleBits) (s : State) : State :=
  clearPacker (settleRemainder (afterSamples xs s))

theorem runCommands_bufferCommands (xs : List SampleBits) (s : State) :
    runCommands (bufferCommands xs) s = .next (afterBuffer xs s) := by
  rw [bufferCommands, runCommands_append, runCommands_map_sample]
  rfl

theorem runCommands_bufferCommands_twice (xs ys : List SampleBits) (s : State) :
    runCommands (bufferCommands xs ++ bufferCommands ys) s = .next (afterBuffer ys (afterBuffer xs s)) := by
  rw [runCommands_append, runCommands_bufferCommands]
  exact runCommands_bufferCommands ys _

/-- A session of its own for the second buffer. -/
theorem runCommands_bufferCommands_start (xs ys : List SampleBits) (m : Mode) (s : State) :
    runCommands (bufferCommands xs ++ .start m :: bufferCommands ys) s =
      .next (afterBuffer ys (constructSession m (afterBuffer xs s))) := by
  rw [runCommands_append, runCommands_bufferCommands]
  exact (runCommands_cons _ _ _).trans (runCommands_bufferCommands ys _)

theorem afterSamples_config (xs : List SampleBits) (s : State) :
    (afterSamples xs s).config = s.config := by
  obtain ⟨t, hrun, -, -, hconfig⟩ := runCommands_samples_w xs s
  rw [runCommands_map_sample, Host.Outcome.next.injEq] at hrun
  exact hrun ▸ hconfig

@[simp] theorem afterBuffer_output (xs : List SampleBits) (s : State) :
    (afterBuffer xs s).output = (afterSamples xs s).output := settleRemainder_output _

/-- With `REMAINDER_COMMITS` a buffer leaves the CodecState after all its samples. -/
theorem afterBuffer_registers_commits {s : State} (hc : s.config.remainderCommits = true)
    (xs : List SampleBits) :
    (afterBuffer xs s).registers =
      ⟨s.mode, codecFold s.mode s.w xs, 0, 0, codecFold s.mode s.w xs⟩ := by
  obtain ⟨hmode, hw⟩ := afterSamples_mode_w xs s
  rw [afterBuffer, settleRemainder_commits (by rwa [afterSamples_config]), ← hw, ← hmode]
  rfl

/-- In the default configuration a buffer leaves the checkpoint its samples took. -/
theorem afterBuffer_registers_drops {s : State} (hc : s.config.remainderCommits = false)
    (xs : List SampleBits) :
    (afterBuffer xs s).registers =
      ⟨s.mode, (afterSamples xs s).k, 0, 0, (afterSamples xs s).k⟩ := by
  rw [afterBuffer, settleRemainder_drops (by rwa [afterSamples_config]), ← (afterSamples_mode_w xs s).1]
  rfl

/-! ### Whole groups and the remainder -/

@[simp] theorem afterSamples_cons (x : SampleBits) (xs : List SampleBits) (s : State) :
    afterSamples (x :: xs) s = afterSamples xs (afterSample x s) := rfl

theorem afterSamples_append (xs ys : List SampleBits) (s : State) :
    afterSamples (xs ++ ys) s = afterSamples ys (afterSamples xs s) := List.foldl_append

/-- Whole groups lead from a byte boundary to a byte boundary (10_state.md R14). -/
theorem afterSamples_cnt_of_dvd {xs : List SampleBits} (hx : 8 ∣ xs.length) {s : State}
    (hcnt : s.cnt = 0) : (afterSamples xs s).cnt = 0 := by
  rw [← cnt_toNat_eq_zero, afterSamples_cnt_toNat, cnt_toNat_eq_zero.2 hcnt, Nat.zero_add]
  exact Nat.mod_eq_zero_of_dvd hx

/-- After whole groups the checkpoint is the working CodecState (10_state.md R17). -/
theorem afterSamples_k_eq_w_of_dvd {xs : List SampleBits} (hx : 8 ∣ xs.length) {s : State}
    (hcnt : s.cnt = 0) (hk : s.k = s.w) : (afterSamples xs s).k = (afterSamples xs s).w := by
  rw [afterSamples_k xs hcnt hk, Nat.mul_div_cancel' hx, List.take_length, (afterSamples_mode_w xs s).2]

/-- Fewer than eight samples from a byte boundary emit nothing and take no checkpoint (41_bit_packer.md
R73, R74). -/
theorem afterSamples_output_k_of_short {xs : List SampleBits} (hx : xs.length < 8) {s : State}
    (hcnt : s.cnt = 0) : (afterSamples xs s).output = s.output ∧ (afterSamples xs s).k = s.k := by
  obtain ⟨t, hrun, houtput, hk, -⟩ :=
    runCommands_samples_inside xs s (by rwa [cnt_toNat_eq_zero.2 hcnt, Nat.zero_add])
  rw [runCommands_map_sample, Host.Outcome.next.injEq] at hrun
  exact hrun ▸ ⟨houtput, hk⟩

/-- The samples after the last whole group reach neither the output nor the checkpoint. -/
theorem afterSamples_output_k_eq_take (xs : List SampleBits) {s : State} (hcnt : s.cnt = 0) :
    (afterSamples xs s).output = (afterSamples (xs.take (8 * (xs.length / 8))) s).output ∧
      (afterSamples xs s).k = (afterSamples (xs.take (8 * (xs.length / 8))) s).k := by
  have hgroups : 8 ∣ (xs.take (8 * (xs.length / 8))).length := by
    rw [List.length_take_of_le (Nat.mul_div_le _ _)]
    exact Nat.dvd_mul_right 8 _
  have hshort : (xs.drop (8 * (xs.length / 8))).length < 8 := by
    rw [List.length_drop]
    omega
  have hsplit : afterSamples xs s =
      afterSamples (xs.drop (8 * (xs.length / 8))) (afterSamples (xs.take (8 * (xs.length / 8))) s) := by
    rw [← afterSamples_append, List.take_append_drop]
  rw [hsplit]
  exact afterSamples_output_k_of_short hshort (afterSamples_cnt_of_dvd hgroups hcnt)

/-! ### The accumulator of a byte boundary -/

/-- Two accumulators that agree above bit 0 give the same packed byte (41_bit_packer.md R71). -/
theorem pack_congr {a b : Byte} (h : ∀ i, 1 ≤ i → a.getLsbD i = b.getLsbD i) (bit : Bool) :
    pack a bit = pack b bit := by
  refine BitVec.eq_of_getLsbD_eq fun i _ => ?_
  rw [pack_getLsbD, pack_getLsbD, h (i + 1) (Nat.le_add_left 1 i)]

/-- Inside a group the samples so far stand in the `cnt` top bits of `acc`, and the bits below are shifted
out before they can reach a byte (41_bit_packer.md R75): only `acc` itself shows them. -/
theorem clearPacker_afterSamples_acc (xs : List SampleBits) {s : State} {a : Byte}
    (h : ∀ i, 8 - s.cnt.toNat ≤ i → a.getLsbD i = s.acc.getLsbD i) :
    clearPacker (afterSamples xs { s with acc := a }) = clearPacker (afterSamples xs s) := by
  induction xs generalizing s a with
  | nil => rfl
  | cons x xs ih =>
    rw [afterSamples_cons, afterSamples_cons]
    by_cases h7 : s.cnt = 7
    · have hpack := pack_congr (fun i hi => h i (by rwa [cnt_toNat_eq_seven.2 h7]))
        (quantize s.mode s.w x).lastBit
      have hsame : afterSample x { s with acc := a } = afterSample x s := by
        rw [afterSample_last h7, afterSample_last (by exact h7)]
        simp only [hpack]
      rw [hsame]
    · have hacc : afterSample x { s with acc := a } =
          { afterSample x s with acc := pack a (quantize s.mode s.w x).lastBit } := by
        rw [afterSample_inside h7, afterSample_inside (by exact h7)]
      rw [hacc, ih fun i hi => ?_]
      rw [afterSample_cnt, cnt_add_one_toNat h7] at hi
      rw [afterSample_acc, if_neg h7, quantize_lastBit, pack_getLsbD, pack_getLsbD, h (i + 1) (by omega)]

theorem settleRemainder_clearPacker (s : State) :
    settleRemainder (clearPacker s) = clearPacker (settleRemainder s) := by
  rw [settleRemainder, settleRemainder, apply_ite clearPacker]
  rfl

/-- A buffer clears the packer when it ends, so what `acc` held at its beginning leaves no trace. -/
theorem afterBuffer_acc (ys : List SampleBits) {s : State} (hcnt : s.cnt = 0) (a : Byte) :
    afterBuffer ys { s with acc := a } = afterBuffer ys s := by
  have hacc : clearPacker (afterSamples ys { s with acc := a }) = clearPacker (afterSamples ys s) := by
    refine clearPacker_afterSamples_acc ys fun i hi => ?_
    rw [cnt_toNat_eq_zero.2 hcnt] at hi
    rw [BitVec.getLsbD_of_ge _ _ hi, BitVec.getLsbD_of_ge _ _ hi]
  rw [afterBuffer, afterBuffer, ← settleRemainder_clearPacker, hacc, settleRemainder_clearPacker]

/-! ### Buffers of whole groups -/

/-- A buffer of whole groups ends where its samples end, but for `acc`: its `END` has nothing to settle. -/
theorem afterBuffer_of_dvd {xs : List SampleBits} (hx : 8 ∣ xs.length) {s : State} (hcnt : s.cnt = 0)
    (hk : s.k = s.w) : afterBuffer xs s = { afterSamples xs s with acc := 0 } := by
  rw [afterBuffer, settleRemainder_of_k_eq_w (afterSamples_k_eq_w_of_dvd hx hcnt hk), clearPacker,
    ← afterSamples_cnt_of_dvd hx hcnt]

/-- A buffer after one of whole groups leaves what the two leave together, with or without the first
`END`. -/
theorem afterBuffer_append {xs : List SampleBits} (hx : 8 ∣ xs.length) (ys : List SampleBits) {s : State}
    (hcnt : s.cnt = 0) (hk : s.k = s.w) :
    afterBuffer ys (afterBuffer xs s) = afterBuffer (xs ++ ys) s := by
  rw [afterBuffer_of_dvd hx hcnt hk, afterBuffer_acc ys (afterSamples_cnt_of_dvd hx hcnt)]
  exact congrArg (fun t => clearPacker (settleRemainder t)) (afterSamples_append xs ys s).symm

/-! ### The statements -/

/-- Settles O25: the first `END` changes only `acc`, which the second buffer does not show. After eight
samples of 100 the level is above 4, where a fresh one is below; 127 is above both. -/
theorem buffersContinueSession : Obligations.BuffersContinueSession := by
  refine ⟨fun s xs ys hcnt hk hx => ⟨_, runCommands_bufferCommands (xs ++ ys) s, ?two, ?one⟩,
    ?otherBytes, ?otherRegisters⟩
  case two => rw [runCommands_bufferCommands_twice, afterBuffer_append hx ys hcnt hk]
  case one =>
    rw [← runCommands_bufferCommands, bufferCommands, bufferCommands, List.map_append, List.append_assoc]
  case otherBytes =>
    refine ⟨List.replicate 8 100, List.replicate 8 4, _, _, ?_, runCommands_bufferCommands_twice _ _ _,
      runCommands_bufferCommands_start _ _ _ _, ?_⟩ <;> decide
  case otherRegisters =>
    refine ⟨List.replicate 8 127, List.replicate 8 127, _, _, ?_, ?_, ?_,
      runCommands_bufferCommands_twice _ _ _, runCommands_bufferCommands_start _ _ _ _, ?_, fun h =>
        absurd (congrArg (fun r => r.w.level) h) ?_⟩ <;> decide

/-- Settles O24: the remainder reaches neither the output nor the checkpoint, to which the default
configuration returns. -/
theorem remainderIsDropped : Obligations.RemainderIsDropped := by
  intro s xs hcnt _
  obtain ⟨houtput, hk⟩ := afterSamples_output_k_eq_take xs hcnt
  refine ⟨_, _, runCommands_bufferCommands xs s, runCommands_bufferCommands _ s, ?bytes, rfl, rfl,
    fun hc => ?drops, fun hc => ?commits⟩
  case bytes => rwa [afterBuffer_output, afterBuffer_output]
  case drops => rw [afterBuffer_registers_drops hc, afterBuffer_registers_drops hc, hk]
  case commits =>
    have hregisters := afterBuffer_registers_commits hc xs
    have hw : (afterBuffer xs s).w = codecFold s.mode s.w xs := congrArg Registers.w hregisters
    have hk : (afterBuffer xs s).k = codecFold s.mode s.w xs := congrArg Registers.k hregisters
    exact ⟨hw, hk.trans hw.symm⟩

end Sys2Proof.Machine
end

section
/-! Determinism (spec/42_session_buffer.md R87): two copies of the block that agree on the parameters and
the registers go on alike, whatever idle steps either is given. -/

namespace Sys2Proof.Machine

/-! ### Agreement of two copies -/

/-- The two states have the same parameters and registers, and the same bytes have been emitted since the
output streams were `o` and `p`. -/
structure AgreeSince (o p : List Byte) (s u : State) : Prop where
  config : s.config = u.config
  registers : s.registers = u.registers
  output : ∃ out, s.output = o ++ out ∧ u.output = p ++ out

section Agreement

variable {o p : List Byte} {s u : State}

/-- The command stream and the model's own counter have no part in the agreement. -/
theorem AgreeSince.begun_left (h : AgreeSince o p s u) (es : List Edge) :
    AgreeSince o p (begun s es) u := ⟨h.config, h.registers, h.output⟩

theorem AgreeSince.begun_both (h : AgreeSince o p s u) (es fs : List Edge) :
    AgreeSince o p (begun s es) (begun u fs) := ⟨h.config, h.registers, h.output⟩

theorem AgreeSince.afterInstr (h : AgreeSince o p s u) (i : Instr) :
    AgreeSince o p (afterInstr i s) (afterInstr i u) := by
  obtain ⟨hregisters, z, hs, hu⟩ := afterInstr_registers i h.config h.registers
  obtain ⟨out, hso, huo⟩ := h.output
  exact ⟨by simp [h.config], hregisters, out ++ z, by simp [hs, hso], by simp [hu, huo]⟩

theorem AgreeSince.hardwareReset (h : AgreeSince o p s u) :
    AgreeSince o p (hardwareReset s) (hardwareReset u) := ⟨h.config, by simp [h.config], h.output⟩

/-- `START` makes the registers agree, whatever they were (42_session_buffer.md R79). -/
theorem agreeSince_constructSession (hc : s.config = u.config) (m : Mode) :
    AgreeSince s.output u.output (constructSession m s) (constructSession m u) :=
  ⟨hc, by simp [hc], [], by simp⟩

/-- A run and the same run without its idle edges, from states that agree: both reach ends that agree, or
both are refused. -/
theorem runEdges_filter_idle (es : List Edge) (h : AgreeSince o p s u) :
    (∃ t v, runEdges es s = .next t ∧ runEdges (es.filter (fun e => !e.isIdle)) u = .next v ∧
      AgreeSince o p t v) ∨
    (runEdges es s = .refused .reservedEncoding ∧
      runEdges (es.filter (fun e => !e.isIdle)) u = .refused .reservedEncoding) := by
  induction es generalizing s u with
  | nil => exact .inl ⟨_, _, rfl, rfl, h.config, h.registers, h.output⟩
  | cons e es ih =>
    cases hidle : e.isIdle with
    | true =>
      have haction : e.action = .perform .nop := beq_iff_eq.1 hidle
      rw [List.filter_cons_of_neg (by simp [hidle]), runEdges_cons_action, haction]
      exact ih (h.begun_left es)
    | false =>
      rw [List.filter_cons_of_pos (by simp [hidle]), runEdges_cons_action, runEdges_cons_action]
      cases e.action with
      | reset => exact ih (h.begun_both es _).hardwareReset
      | perform i => exact ih ((h.begun_both es _).afterInstr i)
      | reserved => exact .inr ⟨rfl, rfl⟩

end Agreement

/-! ### The statement -/

theorem Edge.action_ofInstr_start (m : Mode) : (Edge.ofInstr (.start m)).action = .perform (.start m) :=
  Edge.action_of_word rfl rfl ((decode_eq_start_iff _ m).2 rfl)

theorem runEdges_start_cons (m : Mode) (es : List Edge) (s : State) :
    runEdges (Edge.ofInstr (.start m) :: es) s = runEdges es (constructSession m (begun s es)) := by
  rw [runEdges_cons_action, Edge.action_ofInstr_start]
  rfl

/-- Settles O45: after `START m` the two copies agree, so both runs agree with the one run from the second
copy that has no idle edges. -/
theorem sessionIsDeterministic : Obligations.SessionIsDeterministic := by
  intro m es fs s u s' hconfig hfilter hrun
  have hstart : AgreeSince s.output u.output (constructSession m (begun s es))
      (constructSession m (begun u fs)) :=
    agreeSince_constructSession (s := begun s es) (u := begun u fs) hconfig m
  have hself : AgreeSince u.output u.output (constructSession m (begun u fs))
      (constructSession m (begun u fs)) :=
    agreeSince_constructSession (s := begun u fs) rfl m
  rw [runEdges_start_cons] at hrun
  obtain ⟨t, v, ht, hv, hagree⟩ | ⟨hrefused, -⟩ := runEdges_filter_idle es hstart
  · obtain ⟨u', v', hu', hv', hagree'⟩ | ⟨-, hrefused⟩ := runEdges_filter_idle fs hself
    · rw [hfilter, hv'] at hv
      rw [ht] at hrun
      cases hv
      cases hrun
      obtain ⟨out, hout, hvout⟩ := hagree.output
      obtain ⟨out', hout', hvout'⟩ := hagree'.output
      have hsame : out' = out := List.append_cancel_left (hvout'.symm.trans hvout)
      refine ⟨u', out, (runEdges_start_cons m fs u).trans hu', hout, hsame ▸ hout',
        hagree'.registers.trans hagree.registers.symm⟩
    · rw [← hfilter, hv] at hrefused
      cases hrefused
  · rw [hrun] at hrefused
    cases hrefused

end Sys2Proof.Machine
end

section
/-! What is refused (spec/60_exceptions.md R91 to R94): commands never, steps for a reserved word alone,
texts for a line with a sample out of range (spec/30_encoding.md R50). -/

namespace Sys2Proof

/-! ### The lines of a text -/

theorem sampleInRange_eq_false_iff (n : Int) : sampleInRange n = false ↔ n < -128 ∨ 127 < n := by
  simp only [sampleInRange, Bool.and_eq_false_iff, decide_eq_false_iff_not, not_le]

/-- Well-formedness is the only boundary a line has to pass: no expansion fails behind it. -/
theorem TextLine.expand_eq_none_iff (l : TextLine) : l.expand = none ↔ l.wellFormed = false := by
  unfold TextLine.expand
  cases l.wellFormed <;> simp

theorem TextLine.expand_sample_eq_none_iff (n : Int) :
    (TextLine.sample n).expand = none ↔ n < -128 ∨ 127 < n :=
  (expand_eq_none_iff _).trans (sampleInRange_eq_false_iff n)

theorem TextLine.expand_buffer_eq_none_iff (ns : List Int) :
    (TextLine.buffer ns).expand = none ↔ ∃ n ∈ ns, n < -128 ∨ 127 < n := by
  simp only [expand_eq_none_iff, TextLine.wellFormed, List.all_eq_false, Bool.not_eq_true,
    sampleInRange_eq_false_iff]

/-- One refused line refuses the whole text, and nothing else does (log entry 8). -/
theorem assemble_eq_none_iff (ls : List TextLine) : assemble ls = none ↔ ∃ l ∈ ls, l.expand = none := by
  induction ls with
  | nil => simp [assemble]
  | cons l ls ih =>
    simp only [List.mem_cons, exists_eq_or_imp, ← ih, assemble]
    cases l.expand <;> cases assemble ls <;> simp

end Sys2Proof

namespace Sys2Proof.Machine

/-! ### The statements -/

/-- Settles O41: the first two clauses are about the boundary of one line, the third about the text, and
the last holds because the operand has 8 bits. -/
theorem outOfRangeSampleRefused : Obligations.OutOfRangeSampleRefused := by
  refine ⟨fun n hn => ?sample, fun ns n hmem hn => ?buffer, fun ls l hmem hl => ?text, sampleValue_range⟩
  case sample => exact (TextLine.expand_sample_eq_none_iff n).2 hn
  case buffer => exact (TextLine.expand_buffer_eq_none_iff ns).2 ⟨n, hmem, hn⟩
  case text => exact (assemble_eq_none_iff ls).2 ⟨l, hmem, hl⟩

/-- Settles O31: a command answers `afterInstr`, a step one of the three cases of `step_cases`, and the
fault type has no constructor. -/
theorem commandsTotalStepNeverFaults : Obligations.CommandsTotalStepNeverFaults := by
  refine ⟨fun i s => ⟨afterInstr i s, exec_eq_next i s, ?output⟩, fun s => ?outcome, fun _ r => nomatch r⟩
  case output =>
    obtain ⟨hkept, -⟩ | ⟨_, -, -, hemit, -⟩ := afterInstr_output i s
    · exact .inl hkept
    · exact .inr ⟨_, hemit⟩
  case outcome =>
    obtain ⟨-, hreset⟩ | ⟨_, -, hperform⟩ | ⟨-, hrefused⟩ := step_cases s
    · exact .inl ⟨_, hreset⟩
    · exact .inl ⟨_, hperform⟩
    · exact .inr hrefused

end Sys2Proof.Machine
end

section
/-! Reset at an edge (spec/70_reset_and_hazards.md R104, R105): the step at an edge with `rst = 1`. -/

namespace Sys2Proof.Machine

/-! ### The edge that is presented and consumed -/

theorem presentedEdge_of_input_cons {s : State} {e : Edge} {es : List Edge} (h : s.input = e :: es) :
    s.presentedEdge = e := by
  rw [State.presentedEdge, h, List.headD_cons]

theorem State.beginStep_of_input_cons {s : State} {e : Edge} {es : List Edge} (h : s.input = e :: es) :
    s.beginStep = { s with input := es, emitted := none, draws := s.draws + 1 } := by
  rw [State.beginStep, h, List.tail_cons]

/-! ### The writes of reset -/

/-- Reset writes the nine registers and keeps the rest, the output stream among it (R105). -/
theorem hardwareReset_eq (s : State) :
    hardwareReset s =
      { s with
        mode := s.config.resetMode, w := freshCodec s.config, k := freshCodec s.config, acc := 0, cnt := 0 } :=
  rfl

/-- 70_reset_and_hazards.md R104: reset performs the writes of `START RESET_MODE`. -/
theorem exec_start_resetMode (s : State) :
    exec (.start s.config.resetMode) s = .next (hardwareReset s) :=
  exec_start s.config.resetMode s

/-! ### The statement -/

/-- Settles O28: the step at a reset edge is `hardwareReset` of the begun state, and so is
`START RESET_MODE` there. -/
theorem resetHasPriorityAndStartsSession : Obligations.ResetHasPriorityAndStartsSession := by
  intro s valid w es hin fresh begun
  have hrst : s.presentedEdge.rst = true := by rw [presentedEdge_of_input_cons hin]
  have hstep : step s = .next (hardwareReset begun) := by
    rw [step_of_rst hrst, State.beginStep_of_input_cons hin]
  constructor
  · exact hstep.trans (congrArg _ (hardwareReset_eq begun))
  · exact hstep.trans (exec_start_resetMode begun).symm

end Sys2Proof.Machine
end

section
/-! Encoding (spec/30_encoding.md sections 5 and 6): the canonical words decode to their commands and are
the only words of their commands but for `NOP`'s; the expansions of the text; the step that performs the
command of a word (sections 1 and 8). -/

namespace Sys2Proof

/-! ### Canonical words -/

@[simp] theorem dataField_commandWord (op : BitVec 2) (data : BitVec 8) :
    dataField (commandWord op data) = data := BitVec.extractLsb'_append_eq_right

/-- The decoder gives back the command of a canonical word (30_encoding.md R49). -/
@[simp] theorem decode_encode (i : Instr) : decode (encode i) = some i := by
  cases i with
  | nop => rfl
  | start m => exact (Machine.decode_eq_start_iff _ m).2 rfl
  | sample x => exact (decode_eq_sample_iff _ x).2 ⟨opField_commandWord _ x, dataField_commandWord _ x⟩
  | endBuffer => rfl

/-- Only `NOP` has a word besides its canonical one (30_encoding.md R45 to R47). -/
theorem encode_of_decode {w : CommandWord} {i : Instr} (h : decode w = some i) (hi : i ≠ .nop) :
    encode i = w := by
  cases i with
  | nop => exact absurd rfl hi
  | start m => exact ((Machine.decode_eq_start_iff w m).1 h).symm
  | sample x =>
    have hword := (decode_eq_sample_iff_toNat w x).1 h
    have hcanonical := (decode_eq_sample_iff_toNat _ x).1 (decode_encode (.sample x))
    exact BitVec.eq_of_toNat_eq (hcanonical.trans hword.symm)
  | endBuffer => exact BitVec.eq_of_toNat_eq ((decode_eq_endBuffer_iff w).1 h).symm

/-! ### The lines of a text -/

theorem sampleInRange_iff (n : Int) : sampleInRange n = true ↔ -128 ≤ n ∧ n ≤ 127 := by
  simp [sampleInRange]

/-- In range, the 8 operand bits are the sample (30_encoding.md R43). -/
theorem sampleBits_toInt {n : Int} (h : -128 ≤ n ∧ n ≤ 127) : (sampleBits n).toInt = n := by
  rw [sampleBits, BitVec.toInt_ofInt, Int.bmod_def]
  omega

theorem TextLine.expand_buffer {ns : List Int} (h : ∀ n ∈ ns, -128 ≤ n ∧ n ≤ 127) :
    TextLine.expand (.buffer ns) = some (Machine.bufferCommands (ns.map sampleBits)) := by
  have hwf : (TextLine.buffer ns).wellFormed = true :=
    List.all_eq_true.2 fun n hn => (sampleInRange_iff n).2 (h n hn)
  rw [expand, if_pos hwf, Machine.bufferCommands, List.map_map]
  rfl

theorem TextLine.expand_sample {n : Int} (h : -128 ≤ n ∧ n ≤ 127) :
    TextLine.expand (.sample n) = some [.sample (sampleBits n)] :=
  if_pos ((sampleInRange_iff n).2 h)

/-! ### The statements -/

/-- Settles O36: `decode` is a left inverse of `encode`, and a right one on the words of the other three
commands. -/
theorem decodeInvertsEncode : Obligations.DecodeInvertsEncode := by
  refine ⟨decode_encode, fun w i => encode_of_decode, fun i j h => ?injective⟩
  case injective =>
    have : some i = some j := by rw [← decode_encode i, h, decode_encode]
    exact Option.some.inj this

/-- Settles O39, by evaluation. -/
theorem someWordsDecode : Obligations.SomeWordsDecode := by
  unfold Obligations.SomeWordsDecode
  decide

/-- Settles O40: within the boundary of well-formedness each line has its expansion. -/
theorem pseudoCommandsExpand : Obligations.PseudoCommandsExpand :=
  ⟨fun _ hns => ⟨TextLine.expand_buffer hns, fun n hn => sampleBits_toInt (hns n hn)⟩,
    fun _ => rfl, fun _ => rfl, fun _ => TextLine.expand_sample⟩

end Sys2Proof

namespace Sys2Proof.Machine

/-- The step at an edge with a command word. -/
theorem step_of_word {s : State} {w : CommandWord} {es : List Edge} {i : Instr}
    (hin : s.input = ⟨false, true, w⟩ :: es) (hd : decode w = some i) :
    step s = exec i { s with input := es, emitted := none, draws := s.draws + 1 } := by
  have haction : Edge.action ⟨false, true, w⟩ = .perform i := Edge.action_of_word rfl rfl hd
  rw [step, presentedEdge_of_input_cons hin, haction, State.beginStep_of_input_cons hin]

/-- A word of at most 10 bits is read as it stands from a row of 16 (30_encoding.md R41). -/
theorem decodeTableWord_of_lt {w : Nat} (h : w < 1024) :
    decodeTableWord 16 w = decode (BitVec.ofNat 10 (w % 2 ^ 16)) :=
  if_pos (by omega)

/-- Settles O27: the edge's action is the word's command, and `withFetchWord` puts such an edge in front. -/
theorem stepPerformsDecodedCommand : Obligations.StepPerformsDecodedCommand := by
  refine ⟨fun s w es i => step_of_word, fun s w i hw hd => ?table⟩
  case table =>
    rw [decodeTableWord_of_lt hw] at hd
    exact step_of_word (s := s.withFetchWord 16 w) rfl hd

end Sys2Proof.Machine
end

section
/-! The invariants of spec/10_state.md R18: every command and reset keep them, and what they say at a byte
boundary (spec/42_session_buffer.md section 1, spec/70_reset_and_hazards.md section 5). -/

namespace Sys2Proof.Machine

/-! ### At a byte boundary -/

/-- At a byte boundary the invariants are those of the one CodecState that `W` and `K` share. -/
theorem inv_of_boundary {s : State} (hrange : s.w.InRange s.mode) (hfloor : s.w.Floored s.config s.mode)
    (hk : s.k = s.w) (hacc : s.acc = 0) (hcnt : s.cnt = 0) : s.Inv :=
  ⟨hrange, hk ▸ hrange, hfloor, hk ▸ hfloor, fun _ h => absurd hcnt h, fun _ => hk, by simp [hacc]⟩

theorem State.Inv.k_eq_w {s : State} (h : s.Inv) (hcnt : s.cnt = 0) : s.k = s.w := by
  obtain ⟨-, -, -, -, -, hk, -⟩ := h
  exact hk hcnt

theorem State.Inv.acc_eq_zero {s : State} (h : s.Inv) (hcnt : s.cnt = 0) : s.acc = 0 := by
  obtain ⟨-, -, -, -, -, -, hacc⟩ := h
  rw [hcnt] at hacc
  exact BitVec.eq_of_toNat_eq ((Nat.mod_eq_of_lt s.acc.isLt).symm.trans hacc)

/-! ### What a sample keeps -/

/-- The packed bit takes one of the low places, which the others leave by one (10_state.md R16). -/
theorem pack_lowBits {acc : Byte} {n : Nat} (hn : n < 7) (h : acc.toNat % 2 ^ (8 - n) = 0) (bit : Bool) :
    (pack acc bit).toNat % 2 ^ (8 - (n + 1)) = 0 := by
  have hsplit : 8 - n = (7 - n) + 1 := by omega
  rw [hsplit, pow_succ] at h
  obtain ⟨q, hq⟩ := Nat.dvd_of_mod_eq_zero h
  have hhalf : acc.toNat / 2 = 2 ^ (7 - n) * q := by
    rw [hq, Nat.mul_assoc, Nat.mul_left_comm, Nat.mul_div_cancel_left _ (by omega)]
  have hbit : 2 ^ (7 - n) ∣ 128 := pow_dvd_pow 2 (show 7 - n ≤ 7 by omega)
  rw [pack_toNat, hhalf, show 8 - (n + 1) = 7 - n by omega]
  refine Nat.mod_eq_zero_of_dvd (dvd_add (Nat.dvd_mul_right _ q) ?_)
  split_ifs
  · exact hbit
  · exact dvd_zero _

theorem quantize_floored (c : Config) (m : Mode) (w : CodecState) (x : SampleBits) :
    (quantize m w x).Floored c m := by
  rintro rfl
  exact .inl (quantize_floor w x)

/-- `SAMPLE` keeps the invariants: the eighth one arrives at a boundary, an earlier one moves `W` alone. -/
theorem inv_afterSample {s : State} (h : s.Inv) (x : SampleBits) : (afterSample x s).Inv := by
  obtain ⟨hw, hk, -, hkfloor, -, -, hacc⟩ := h
  have hrange : (quantize s.mode s.w x).InRange s.mode := quantize_inRange hw x
  have hfloor := quantize_floored s.config s.mode s.w x
  by_cases h7 : s.cnt = 7
  · rw [afterSample_last h7]
    exact inv_of_boundary hrange hfloor rfl rfl rfl
  · have hcnt := cnt_add_one_toNat h7
    have hlt : s.cnt.toNat < 7 := by
      have := (s.cnt + 1).isLt
      omega
    rw [afterSample_inside h7]
    refine ⟨hrange, hk, hfloor, hkfloor, fun hm _ => ?_, fun h0 => ?_, ?_⟩
    · rw [show s.mode = .current from hm]
      exact quantize_floor s.w x
    · have hzero : (s.cnt + 1).toNat = 0 := cnt_toNat_eq_zero.2 h0
      omega
    · rw [hcnt]
      exact pack_lowBits hlt hacc _

/-! ### What every command and reset keep -/

theorem inv_constructSession (m : Mode) (s : State) : (constructSession m s).Inv :=
  inv_of_boundary (freshCodec_inRange _ _) (fun _ => .inr rfl) rfl rfl rfl

/-- `END` returns to a boundary with `W` or with `K`, which both meet the invariants. -/
theorem inv_afterEnd {s : State} (h : s.Inv) : (clearPacker (settleRemainder s)).Inv := by
  obtain ⟨hw, hk, hwfloor, hkfloor, -⟩ := h
  rw [afterEnd_cases]
  split_ifs
  · exact inv_of_boundary hw hwfloor rfl rfl rfl
  · exact inv_of_boundary hk hkfloor rfl rfl rfl

theorem inv_afterInstr {s : State} (h : s.Inv) (i : Instr) : (afterInstr i s).Inv := by
  cases i with
  | nop => exact h
  | start m => exact inv_constructSession m s
  | sample x => exact inv_afterSample h x
  | endBuffer => exact inv_afterEnd h

theorem inv_afterCommands {s : State} (h : s.Inv) (is : List Instr) :
    (is.foldl (fun t i => afterInstr i t) s).Inv := by
  induction is generalizing s with
  | nil => exact h
  | cons i is ih => exact ih (inv_afterInstr h i)

/-- A complete run has ended at a byte boundary: `END` leads to one from anywhere (R116). -/
theorem cnt_eq_zero_of_runComplete {is : List Instr} {s : State}
    (h : runComplete is (is.foldl (fun t i => afterInstr i t) s) = true) :
    (is.foldl (fun t i => afterInstr i t) s).cnt = 0 := by
  rw [runComplete, Bool.or_eq_true, beq_iff_eq, beq_iff_eq, List.getLast?_eq_some_iff] at h
  obtain ⟨js, rfl⟩ | hcnt := h
  · rw [List.foldl_concat]
    exact clearPacker_cnt _
  · exact hcnt

/-! ### The statements -/

/-- Settles O42: the reset state is a boundary with a fresh CodecState. -/
theorem resetMeetsInvariant : Obligations.ResetMeetsInvariant :=
  inv_constructSession .current State.reset

/-- Settles O43: a step has reset or performed a command, and both keep the invariants. -/
theorem stepKeepsInvariant : Obligations.StepKeepsInvariant := by
  intro s t hs hstep
  have hbegun : s.beginStep.Inv := hs
  obtain ⟨-, rfl⟩ | ⟨i, -, rfl⟩ := step_next hstep
  · exact inv_constructSession _ _
  · exact inv_afterInstr hbegun i

/-- Settles O5: `END` has nothing to settle where `K == W`, and nothing to clear at a boundary. -/
theorem endAtBoundaryChangesNothing : Obligations.EndAtBoundaryChangesNothing := by
  intro s hs hcnt
  have hclear : clearPacker s = s := by rw [clearPacker, ← hs.acc_eq_zero hcnt, ← hcnt]
  rw [exec_endBuffer_of_k_eq_w (hs.k_eq_w hcnt), hclear]

/-- Settles O26: a complete run ends at a byte boundary, in a state that meets the invariants. -/
theorem completeRunLeavesNothingPending : Obligations.CompleteRunLeavesNothingPending := by
  intro s is hs
  refine ⟨_, runCommands_total is s, fun hcomplete => ?_⟩
  have hend := inv_afterCommands hs is
  have hcnt := cnt_eq_zero_of_runComplete hcomplete
  exact ⟨hcnt, hend.acc_eq_zero hcnt, hend.k_eq_w hcnt⟩

end Sys2Proof.Machine
end

section
/-! What is hidden (spec/10_state.md sections 2 and 6, spec/41_bit_packer.md section 2): a difference between
two states that every command keeps hidden, or makes vanish, is seen in no output byte of any run. -/

namespace Sys2Proof.Machine

/-! ### Hidden differences -/

/-- A relation of states with the same output streams that the clock keeps and that every command keeps or
resolves; reset resolves it. -/
structure HiddenDifference (R : State → State → Prop) : Prop where
  output : ∀ {s u}, R s u → s.output = u.output
  begun : ∀ {s u}, R s u → ∀ es, R (begun s es) (begun u es)
  withInput : ∀ {s u}, R s u → ∀ es, R (s.withInput es) (u.withInput es)
  reset : ∀ {s u}, R s u → hardwareReset s = hardwareReset u
  afterInstr : ∀ {s u}, R s u → ∀ i,
    afterInstr i s = afterInstr i u ∨ R (afterInstr i s) (afterInstr i u)

/-- No run shows a hidden difference: the two states stay apart by it until they are the same. -/
theorem HiddenDifference.outcomeOutput_eq {R : State → State → Prop} (hR : HiddenDifference R)
    (es : List Edge) {s u : State} (h : R s u) :
    outcomeOutput (runEdges es s) = outcomeOutput (runEdges es u) := by
  have hrun := runEdges_related (R := fun s u => s = u ∨ R s u)
    (fun s u es => Or.imp (congrArg (Machine.begun · es)) (hR.begun · es))
    (fun s u es => Or.imp (congrArg (State.withInput · es)) (hR.withInput · es))
    (fun s u h => .inl (h.elim (congrArg hardwareReset) hR.reset))
    (fun i s u h => h.elim (fun h => .inl (congrArg (Machine.afterInstr i) h)) (hR.afterInstr · i))
    es s u (.inr h)
  obtain ⟨t, v, ht, hv, hend⟩ | ⟨hs, hu⟩ := hrun
  · have hout : t.output = v.output := hend.elim (congrArg State.output) hR.output
    rw [ht, hv, outcomeOutput, outcomeOutput, hout]
  · rw [hs, hu]

/-! ### The accumulator below the samples of the group -/

/-- The states differ only in the bits of `acc` below the `cnt` top ones, where the decisions stand. -/
def DifferBelowDecisions (s u : State) : Prop :=
  ∃ a, u = { s with acc := a } ∧ ∀ i, 8 - s.cnt.toNat ≤ i → a.getLsbD i = s.acc.getLsbD i

/-- The bits below the decisions are shifted out by the byte's end (41_bit_packer.md R75). -/
theorem differBelowDecisions_afterSample {s u : State} (h : DifferBelowDecisions s u) (x : SampleBits) :
    afterSample x s = afterSample x u ∨ DifferBelowDecisions (afterSample x s) (afterSample x u) := by
  obtain ⟨a, rfl, hbits⟩ := h
  by_cases h7 : s.cnt = 7
  · have hpack := pack_congr (fun i hi => hbits i (by rwa [cnt_toNat_eq_seven.2 h7]))
      (quantize s.mode s.w x).lastBit
    rw [afterSample_last h7, afterSample_last (by exact h7)]
    simp only [hpack, true_or]
  · refine .inr ⟨pack a (quantize s.mode s.w x).lastBit, ?_, fun i hi => ?_⟩
    · rw [afterSample_inside h7, afterSample_inside (by exact h7)]
    · rw [afterSample_cnt, cnt_add_one_toNat h7] at hi
      rw [afterSample_acc, if_neg h7, quantize_lastBit, pack_getLsbD, pack_getLsbD, hbits (i + 1) (by omega)]

theorem hiddenDifference_acc : HiddenDifference DifferBelowDecisions where
  output := by rintro s _ ⟨a, rfl, -⟩; rfl
  begun := by rintro s _ ⟨a, rfl, h⟩ es; exact ⟨a, rfl, h⟩
  withInput := by rintro s _ ⟨a, rfl, h⟩ es; exact ⟨a, rfl, h⟩
  reset := by rintro s _ ⟨a, rfl, -⟩; rfl
  afterInstr := by
    intro s u h i
    cases i with
    | nop => exact .inr h
    | start m => obtain ⟨a, rfl, -⟩ := h; exact .inl rfl
    | sample x => exact differBelowDecisions_afterSample h x
    | endBuffer =>
      obtain ⟨a, rfl, -⟩ := h
      exact .inl (by simp only [afterInstr, afterEnd_cases])

/-! ### The checkpoint of a committing block -/

/-- The states differ only in a checkpoint that no `END` returns to. -/
def DifferInUnusedCheckpoint (s u : State) : Prop :=
  s.config.remainderCommits = true ∧ ∃ k, u = { s with k := k }

theorem hiddenDifference_checkpoint : HiddenDifference DifferInUnusedCheckpoint where
  output := by rintro s _ ⟨-, k, rfl⟩; rfl
  begun := by rintro s _ ⟨hc, k, rfl⟩ es; exact ⟨hc, k, rfl⟩
  withInput := by rintro s _ ⟨hc, k, rfl⟩ es; exact ⟨hc, k, rfl⟩
  reset := by rintro s _ ⟨-, k, rfl⟩; rfl
  afterInstr := by
    rintro s _ ⟨hc, k, rfl⟩ i
    cases i with
    | nop => exact .inr ⟨hc, k, rfl⟩
    | start m => exact .inl rfl
    | sample x =>
      simp only [afterInstr]
      by_cases h7 : s.cnt = 7
      · exact .inl (by rw [afterSample_last h7, afterSample_last (by exact h7)])
      · refine .inr ⟨by rwa [afterSample_config], k, ?_⟩
        rw [afterSample_inside h7, afterSample_inside (by exact h7)]
    | endBuffer => exact .inl (by simp only [afterInstr, afterEnd_cases, hc, if_true])

/-! ### The flag in `current` mode -/

/-- A CodecState with another flag. -/
def CodecState.withLastBit (w : CodecState) (b : Bool) : CodecState := { w with lastBit := b }

/-- In `current` mode the response is not adapted, and nothing else reads the flag (40_quantizer.md R62). -/
theorem quantize_current_withLastBit (w : CodecState) (b : Bool) (x : SampleBits) :
    quantize .current (w.withLastBit b) x = quantize .current w x := by
  simp only [quantize, CodecState.withLastBit, nextResponse_current]

/-- The states differ only in the flags of `W` and `K`, in `current` mode. -/
def DifferInUnusedFlag (s u : State) : Prop :=
  s.mode = .current ∧ ∃ b c, u = { s with w := s.w.withLastBit b, k := s.k.withLastBit c }

theorem differInUnusedFlag_afterSample {s u : State} (h : DifferInUnusedFlag s u) (x : SampleBits) :
    afterSample x s = afterSample x u ∨ DifferInUnusedFlag (afterSample x s) (afterSample x u) := by
  obtain ⟨hm, b, c, rfl⟩ := h
  have hq : quantize s.mode (s.w.withLastBit b) x = quantize s.mode s.w x := by
    rw [hm, quantize_current_withLastBit]
  by_cases h7 : s.cnt = 7
  · refine .inl ?_
    rw [afterSample_last h7, afterSample_last (by exact h7)]
    simp only [hq]
  · refine .inr ⟨by rwa [afterSample_mode], (quantize s.mode s.w x).lastBit, c, ?_⟩
    rw [afterSample_inside h7, afterSample_inside (by exact h7)]
    simp only [hq]
    rfl

theorem hiddenDifference_lastBit : HiddenDifference DifferInUnusedFlag where
  output := by rintro s _ ⟨-, b, c, rfl⟩; rfl
  begun := by rintro s _ ⟨hm, b, c, rfl⟩ es; exact ⟨hm, b, c, rfl⟩
  withInput := by rintro s _ ⟨hm, b, c, rfl⟩ es; exact ⟨hm, b, c, rfl⟩
  reset := by rintro s _ ⟨-, b, c, rfl⟩; rfl
  afterInstr := by
    intro s u h i
    cases i with
    | nop => exact .inr h
    | start m => obtain ⟨-, b, c, rfl⟩ := h; exact .inl rfl
    | sample x => exact differInUnusedFlag_afterSample h x
    | endBuffer =>
      obtain ⟨hm, b, c, rfl⟩ := h
      refine .inr ?_
      simp only [afterInstr, afterEnd_cases]
      split_ifs
      · exact ⟨hm, b, b, rfl⟩
      · exact ⟨hm, c, c, rfl⟩

/-! ### The statements -/

/-- Settles O46: at `cnt == 0` all of `acc` is below the decisions. -/
theorem boundaryAccIsInvisible : Obligations.BoundaryAccIsInvisible := by
  intro es s a hcnt
  refine (hiddenDifference_acc.outcomeOutput_eq es ⟨a, rfl, fun i hi => ?_⟩).symm
  rw [cnt_toNat_eq_zero.2 hcnt] at hi
  rw [BitVec.getLsbD_of_ge _ _ hi, BitVec.getLsbD_of_ge _ _ hi]

/-- Settles O47: only `END` reads `K`, and with `REMAINDER_COMMITS` it writes it instead. -/
theorem checkpointIsInvisibleWhenCommitting : Obligations.CheckpointIsInvisibleWhenCommitting :=
  fun es _ k hc => (hiddenDifference_checkpoint.outcomeOutput_eq es ⟨hc, k, rfl⟩).symm

/-- Settles O48: the flags differ until a sample writes them or a session starts, in whatever mode. -/
theorem lastBitIsInvisibleInCurrentMode : Obligations.LastBitIsInvisibleInCurrentMode :=
  fun es _ b c hm => (hiddenDifference_lastBit.outcomeOutput_eq es ⟨hm, b, c, rfl⟩).symm

end Sys2Proof.Machine
end

section
/-! The machine on a buffer is `encodeBuffer` (spec/42_session_buffer.md R83): group by group, the bytes and
the CodecState of the samples; and the statements on whole groups (spec/40_quantizer.md section 7,
spec/41_bit_packer.md section 1). -/

namespace Sys2Proof.Machine

/-! ### `encodeGroups` -/

@[simp] theorem encodeGroups_fst_length (m : Mode) (n : Nat) (w : CodecState) (xs : List SampleBits) :
    (encodeGroups m n w xs).1.length = n := by
  induction n generalizing w xs with
  | zero => rfl
  | succ n ih => rw [encodeGroups, List.length_cons, ih]

/-- The CodecState after the groups is the fold over their samples. -/
theorem encodeGroups_snd (m : Mode) (n : Nat) (w : CodecState) (xs : List SampleBits) :
    (encodeGroups m n w xs).2 = codecFold m w (xs.take (8 * n)) := by
  induction n generalizing w xs with
  | zero => rfl
  | succ n ih =>
    rw [encodeGroups, ih, ← codecFold_append, ← List.take_add, Nat.mul_succ, Nat.add_comm 8]

/-- `encodeBuffer` of a committing block ends after all the samples, and otherwise after the groups. -/
theorem encodeBuffer_snd (commits : Bool) (m : Mode) (w : CodecState) (xs : List SampleBits) :
    (encodeBuffer commits m w xs).2 =
      codecFold m w (if commits then xs else xs.take (8 * (xs.length / 8))) := by
  cases commits with
  | true =>
    calc _ = codecFold m (encodeGroups m (xs.length / 8) w xs).2 (xs.drop (8 * (xs.length / 8))) := rfl
      _ = codecFold m w xs := by rw [encodeGroups_snd, ← codecFold_append, List.take_append_drop]
  | false => exact encodeGroups_snd m _ w xs

/-! ### The bytes of whole groups -/

/-- A group from a byte boundary: one byte, the weighted sum of its decisions (41_bit_packer.md R72). -/
theorem afterSamples_group {xs : List SampleBits} (hx : xs.length = 8) {s : State} (hcnt : s.cnt = 0) :
    (afterSamples xs s).cnt = 0 ∧
      (afterSamples xs s).output =
        s.output ++ [BitVec.ofNat 8 (weightedSum (decisions s.mode s.w xs))] := by
  obtain ⟨t, hrun, hcnt', -, -, -, -, -, houtput⟩ := runCommands_group xs hx s hcnt
  rw [runCommands_map_sample, Host.Outcome.next.injEq] at hrun
  rw [foldl_pack_eq _ _ (by rw [decisions_length, hx])] at houtput
  exact hrun ▸ ⟨hcnt', houtput⟩

/-- From a byte boundary whole groups append the bytes of `encodeGroups`. -/
theorem afterSamples_take_output {n : Nat} {xs : List SampleBits} (hx : 8 * n ≤ xs.length) {s : State}
    (hcnt : s.cnt = 0) :
    (afterSamples (xs.take (8 * n)) s).output = s.output ++ (encodeGroups s.mode n s.w xs).1 := by
  induction n generalizing xs s with
  | zero => exact (List.append_nil _).symm
  | succ n ih =>
    have hlength : (xs.take 8).length = 8 := List.length_take_of_le (by omega)
    have hdrop : 8 * n ≤ (xs.drop 8).length := by rw [List.length_drop]; omega
    obtain ⟨hcnt', houtput⟩ := afterSamples_group hlength hcnt
    obtain ⟨hmode, hw⟩ := afterSamples_mode_w (xs.take 8) s
    rw [Nat.mul_succ, Nat.add_comm, List.take_add, afterSamples_append, ih hdrop hcnt', houtput, hmode, hw,
      encodeGroups, List.append_assoc, List.singleton_append]

/-- From a byte boundary samples append the bytes of their whole groups. -/
theorem afterSamples_output (xs : List SampleBits) {s : State} (hcnt : s.cnt = 0) :
    (afterSamples xs s).output = s.output ++ (encodeGroups s.mode (xs.length / 8) s.w xs).1 := by
  rw [(afterSamples_output_k_eq_take xs hcnt).1, afterSamples_take_output (Nat.mul_div_le _ _) hcnt]

/-- A buffer leaves in `W` and `K` the CodecState of `encodeBuffer`, and a clear packer. -/
theorem afterBuffer_registers {s : State} (hcnt : s.cnt = 0) (hk : s.k = s.w) (xs : List SampleBits) :
    (afterBuffer xs s).registers =
      ⟨s.mode, (encodeBuffer s.config.remainderCommits s.mode s.w xs).2, 0, 0,
        (encodeBuffer s.config.remainderCommits s.mode s.w xs).2⟩ := by
  rw [encodeBuffer_snd]
  cases hc : s.config.remainderCommits with
  | true => exact afterBuffer_registers_commits hc xs
  | false =>
    rw [afterBuffer_registers_drops hc, afterSamples_k xs hcnt hk]
    rfl

/-! ### Samples that all decide alike -/

theorem decisions_replicate {x : SampleBits} {b : Bool}
    (hb : ∀ l : Level, decideBit (sampleValue x) l.toInt = b) (m : Mode) (w : CodecState) (n : Nat) :
    decisions m w (List.replicate n x) = List.replicate n b := by
  induction n generalizing w with
  | zero => rfl
  | succ n ih => rw [List.replicate_succ, decisions, hb, ih, List.replicate_succ]

/-- A constant input with one decision gives one byte again and again. -/
theorem encodeGroups_replicate {x : SampleBits} {b : Bool}
    (hb : ∀ l : Level, decideBit (sampleValue x) l.toInt = b) (m : Mode) (w : CodecState) (n : Nat) :
    (encodeGroups m n w (List.replicate (8 * n) x)).1 =
      List.replicate n (BitVec.ofNat 8 (weightedSum (List.replicate 8 b))) := by
  induction n generalizing w with
  | zero => rfl
  | succ n ih =>
    rw [encodeGroups, List.take_replicate, List.drop_replicate, Nat.min_eq_left (by omega),
      Nat.mul_succ, Nat.add_sub_cancel, ih, decisions_replicate hb, List.replicate_succ (n := n)]

theorem runCommands_replicate_sample {x : SampleBits} {b : Bool}
    (hb : ∀ l : Level, decideBit (sampleValue x) l.toInt = b) (n : Nat) {s : State} (hcnt : s.cnt = 0) :
    ∃ t, runCommands (List.replicate (8 * n) (.sample x)) s = .next t ∧
      t.output = s.output ++ List.replicate n (BitVec.ofNat 8 (weightedSum (List.replicate 8 b))) := by
  refine ⟨afterSamples (List.replicate (8 * n) x) s, ?_, ?_⟩
  · rw [← List.map_replicate, runCommands_map_sample]
  · rw [afterSamples_output _ hcnt, List.length_replicate, Nat.mul_div_cancel_left n (by omega),
      encodeGroups_replicate hb]

/-- Nothing is above 127, and the tie there decides true (40_quantizer.md R54). -/
theorem decideBit_max (l : Level) : decideBit (sampleValue 0x7F) l.toInt = true := by
  have hl := level_toInt_range l
  have hvalue : sampleValue 0x7F = 127 := rfl
  rw [decideBit_true_iff, hvalue]
  omega

/-- Nothing is below -128, and the tie there decides false (40_quantizer.md R54). -/
theorem decideBit_min (l : Level) : decideBit (sampleValue 0x80) l.toInt = false := by
  have hl := level_toInt_range l
  have hvalue : sampleValue 0x80 = -128 := rfl
  rw [← Bool.not_eq_true, decideBit_true_iff, hvalue]
  omega

/-! ### The bits of a group's byte -/

/-- Packing shifts: the place `i` shows what was packed when `i` places were still to come. -/
theorem foldl_pack_getLsbD (bs : List Bool) (a : Byte) {i : Nat} (hi : i < 8) (hlen : 8 ≤ i + bs.length) :
    (bs.foldl pack a).getLsbD i = bs.getD (i + bs.length - 8) false := by
  induction bs using List.reverseRecOn generalizing i with
  | nil => simp at hlen; omega
  | append_singleton bs b ih =>
    rw [List.length_append, List.length_singleton] at hlen ⊢
    rw [List.foldl_concat, pack_getLsbD]
    by_cases h7 : i = 7
    · rw [if_pos h7, List.getD_append_right _ _ _ _ (by omega), h7,
        show 7 + (bs.length + 1) - 8 - bs.length = 0 by omega]
      rfl
    · rw [if_neg h7, if_pos (by omega), ih (by omega) (by omega), List.getD_append _ _ _ _ (by omega),
        show i + 1 + bs.length = i + (bs.length + 1) by omega]

/-- The flag after a sample is its decision (40_quantizer.md R64). -/
theorem codecFold_take_lastBit (m : Mode) {xs : List SampleBits} {i : Nat} (hi : i < xs.length)
    (w : CodecState) : (codecFold m w (xs.take (i + 1))).lastBit = (decisions m w xs).getD i false := by
  induction xs generalizing i w with
  | nil => exact absurd hi (Nat.not_lt_zero i)
  | cons x xs ih =>
    cases i with
    | zero => rfl
    | succ i => exact ih (Nat.lt_of_succ_lt_succ hi) _

/-! ### The statements -/

/-- Settles O22: group by group the bytes, and the CodecState of the samples that stand. -/
theorem bufferRefinesEncodeBuffer : Obligations.BufferRefinesEncodeBuffer := by
  intro s xs hcnt hk
  refine ⟨_, runCommands_bufferCommands xs s, ?bytes, afterBuffer_registers hcnt hk xs⟩
  case bytes =>
    rw [afterBuffer_output, afterSamples_output xs hcnt]
    rfl

/-- Settles O23: a buffer's bytes are those of its whole groups. -/
theorem bufferLengthLaw : Obligations.BufferLengthLaw := by
  intro s xs hcnt
  refine ⟨_, (encodeGroups s.mode (xs.length / 8) s.w xs).1, runCommands_bufferCommands xs s, ?bytes,
    encodeGroups_fst_length _ _ _ _, fun hshort => ?short⟩
  case bytes => rw [afterBuffer_output, afterSamples_output xs hcnt]
  case short => rw [Nat.div_eq_of_lt hshort, encodeGroups]

/-- Settles O14: the decisions do not depend on the level, so all the bytes are the same. -/
theorem extremeSamplesDecide : Obligations.ExtremeSamplesDecide := by
  refine ⟨fun s => ⟨_, exec_sample _ s, ?max⟩, fun s => ⟨_, exec_sample _ s, ?min⟩, fun n s hcnt =>
    ⟨runCommands_replicate_sample decideBit_max n hcnt, runCommands_replicate_sample decideBit_min n hcnt⟩⟩
  case max => rw [afterSample_w, quantize_lastBit, decideBit_max]
  case min => rw [afterSample_w, quantize_lastBit, decideBit_min]

/-- Settles O20: the byte is the eight decisions packed, and place `i` shows the decision packed `i`-th. -/
theorem eightDecisionsMakeByte : Obligations.EightDecisionsMakeByte := by
  intro s xs hcnt hx
  obtain ⟨t, hrun, hcnt', -, -, -, -, -, houtput⟩ := runCommands_group xs hx s hcnt
  refine ⟨t, _, hrun, houtput, hcnt', fun i hi =>
    ⟨_, runCommands_map_sample (xs.take (i + 1)) s, ?_⟩⟩
  have hlen : (decisions s.mode s.w xs).length = 8 := by rw [decisions_length, hx]
  rw [foldl_pack_getLsbD _ _ hi (by omega), hlen, Nat.add_sub_cancel, (afterSamples_mode_w _ s).2,
    codecFold_take_lastBit _ (by omega)]

end Sys2Proof.Machine
end

section
/-! The context update of one sample (spec/40_quantizer.md sections 5 to 7): what it reads, how far it moves,
the width of its intermediate values, and the closed form of `current` mode. -/

namespace Sys2Proof.Machine

/-! ### What the update reads -/

/-- The level register is the narrowed new level: the flag has no part in it (40_quantizer.md R64). -/
theorem quantize_level (m : Mode) (w : CodecState) (x : SampleBits) :
    (quantize m w x).level =
      narrowLevel (nextLevel (modeConstants m) (quantize m w x).lastBit w.level.toInt w.response.toNat) :=
  rfl

/-- The response register is the narrowed new response: the level has no part in it (40_quantizer.md R64). -/
theorem quantize_response (m : Mode) (w : CodecState) (x : SampleBits) :
    (quantize m w x).response =
      narrowResponse (nextResponse (modeConstants m) (quantize m w x).lastBit w.lastBit w.response.toNat) :=
  rfl

/-! ### The move toward the target -/

/-- A true decision moves the level up, unless it is 127 (40_quantizer.md R68). -/
theorem quantize_level_up {m : Mode} {w : CodecState} (h : w.InRange m) {x : SampleBits}
    (hbit : decideBit (sampleValue x) w.level.toInt = true) :
    w.level.toInt ≤ (quantize m w x).level.toInt ∧
      (w.level.toInt ≠ 127 → w.level.toInt < (quantize m w x).level.toInt) := by
  rw [quantize_level_toInt h, hbit]
  obtain ⟨hle, -, hlt⟩ := nextLevel_up m (level_toInt_range w.level).2 (response_toNat_range w.response).1 h
  exact ⟨hle, hlt⟩

/-- A false decision moves the level down, unless it is -128 (40_quantizer.md R68). -/
theorem quantize_level_down {m : Mode} {w : CodecState} (h : w.InRange m) {x : SampleBits}
    (hbit : decideBit (sampleValue x) w.level.toInt = false) :
    (quantize m w x).level.toInt ≤ w.level.toInt ∧
      (w.level.toInt ≠ -128 → (quantize m w x).level.toInt < w.level.toInt) := by
  rw [quantize_level_toInt h, hbit]
  obtain ⟨-, hle, hlt⟩ := nextLevel_down m (level_toInt_range w.level).1 (response_toNat_range w.response).1 h
  exact ⟨hle, hlt⟩

/-! ### Convergence -/

/-- How far the level is from the target of a decision. -/
def levelGap (bit : Bool) (l : Level) : Nat := (levelTarget bit - l.toInt).natAbs

theorem levelGap_le (bit : Bool) (l : Level) : levelGap bit l ≤ 255 := by
  have := level_toInt_range l
  obtain ⟨-, h⟩ | ⟨-, h⟩ := levelTarget_cases bit <;> rw [levelGap, h] <;> omega

theorem levelGap_eq_zero_iff (bit : Bool) (l : Level) : levelGap bit l = 0 ↔ l.toInt = levelTarget bit := by
  rw [levelGap, Int.natAbs_eq_zero, sub_eq_zero, eq_comm]

/-- One sample closes the gap to its own target by one at least. -/
theorem levelGap_quantize {m : Mode} {w : CodecState} (h : w.InRange m) {x : SampleBits} {bit : Bool}
    (hbit : decideBit (sampleValue x) w.level.toInt = bit) :
    levelGap bit (quantize m w x).level ≤ levelGap bit w.level - 1 := by
  have hrange := level_toInt_range (quantize m w x).level
  cases bit with
  | true =>
    obtain ⟨hle, hlt⟩ := quantize_level_up h hbit
    simp only [levelGap, levelTarget, if_true]
    omega
  | false =>
    obtain ⟨hle, hlt⟩ := quantize_level_down h hbit
    simp only [levelGap, levelTarget, Bool.false_eq_true, if_false]
    omega

theorem levelGap_codecFold_replicate {x : SampleBits} {bit : Bool}
    (hbit : ∀ l : Level, decideBit (sampleValue x) l.toInt = bit) {m : Mode} (n : Nat) {w : CodecState}
    (h : w.InRange m) :
    levelGap bit (codecFold m w (List.replicate n x)).level ≤ levelGap bit w.level - n := by
  induction n generalizing w with
  | zero => exact le_rfl
  | succ n ih =>
    have hstep := levelGap_quantize h (hbit w.level)
    have hrest := ih (quantize_inRange h x)
    rw [List.replicate_succ, codecFold_cons]
    omega

/-- 255 samples that all decide one way bring the level to its target from anywhere. -/
theorem runCommands_replicate_converges {x : SampleBits} {bit : Bool}
    (hbit : ∀ l : Level, decideBit (sampleValue x) l.toInt = bit) {n : Nat} (hn : 255 ≤ n) {s : State}
    (h : s.w.InRange s.mode) :
    ∃ t, runCommands (List.replicate n (.sample x)) s = .next t ∧ t.w.level.toInt = levelTarget bit := by
  refine ⟨afterSamples (List.replicate n x) s, ?_, ?_⟩
  · rw [← List.map_replicate, runCommands_map_sample]
  · have hstart := levelGap_le bit s.w.level
    have hend := levelGap_codecFold_replicate hbit n h
    rw [(afterSamples_mode_w _ s).2, ← levelGap_eq_zero_iff]
    omega

/-! ### The width of the intermediate values -/

theorem levelTarget_sub_bounds (bit : Bool) {level : Int} (h1 : -128 ≤ level) (h2 : level ≤ 127) :
    -255 ≤ levelTarget bit - level ∧ levelTarget bit - level ≤ 255 := by
  obtain ⟨-, h⟩ | ⟨-, h⟩ := levelTarget_cases bit <;> rw [h] <;> omega

/-- The product-sum of the level move, from the bounds of its two factors (40_quantizer.md R67). -/
theorem levelSum_bounds (mc : ModeConstants) (bit : Bool) {level response ceiling : Int} (h1 : -128 ≤ level)
    (h2 : level ≤ 127) (hr : 0 ≤ response) (hr' : response ≤ ceiling) :
    ceiling * -255 + levelHalf mc ≤ levelSum mc bit level response ∧
      levelSum mc bit level response ≤ ceiling * 255 + levelHalf mc := by
  obtain ⟨hlo, hhi⟩ := levelTarget_sub_bounds bit h1 h2
  rw [levelSum]
  constructor <;> nlinarith

theorem respSum_legacy (same : Bool) (response : Int) :
    respSum (modeConstants .legacy) same response =
      (if same then 7 else 20) * ((if same then 255 else 0) - response) + 128 := rfl

/-! ### `current` mode -/

/-- In `current` mode the first sample clamps the response, and the later ones leave it (40_quantizer.md
R62, R63). -/
theorem codecFold_current_response (x : SampleBits) (xs : List SampleBits) (w : CodecState) :
    (codecFold .current w (x :: xs)).response.toNat = max w.response.toNat 8 := by
  have hfirst : ∀ (y : SampleBits) (v : CodecState),
      (quantize .current v y).response.toNat = max v.response.toNat 8 := fun y v => by
    have := quantize_response_toNat .current v y
    rw [nextResponse_current] at this
    omega
  induction xs generalizing x w with
  | nil => exact hfirst x w
  | cons y ys ih =>
    rw [codecFold_cons, ih, hfirst, max_eq_left (le_max_right _ 8)]

theorem freshCodec_response_toNat (c : Config) :
    (freshCodec c).response.toNat = c.initResponse.toNat :=
  BitVec.toNat_setWidth_of_le (by omega)

/-- The table of 40_quantizer.md section 7: at a response of 8 the rounded move is two steps far from the
target, one nearer by and none close to it, where the nudge makes one of it. -/
theorem nextLevel_current_eight (bit : Bool) {l : Int} (h1 : -128 ≤ l) (h2 : l ≤ 127) :
    nextLevel (modeConstants .current) bit l 8 =
      if bit then (if l ≤ -65 then l + 2 else if l ≤ 126 then l + 1 else 127)
      else (if 65 ≤ l then l - 2 else if -127 ≤ l then l - 1 else -128) := by
  rw [nextLevel, rawLevel_current, levelTarget]
  cases bit with
  | true => simp only [if_true]; split_ifs <;> omega
  | false => simp only [Bool.false_eq_true, if_false]; split_ifs <;> omega

/-! ### The statements -/

/-- Settles O10: both registers are functions of the decision and of what they read. -/
theorem updateReadsOnlyOldRegisters : Obligations.UpdateReadsOnlyOldRegisters := by
  intro x y s u s' u' hs hu hmode hbit hresponse
  rw [exec_sample, Host.Outcome.next.injEq] at hs hu
  subst hs hu
  rw [afterSample_w, afterSample_w] at hbit ⊢
  refine ⟨fun hflag => ?response, fun hlevel => ?level⟩
  case response => rw [quantize_response, quantize_response, hbit, hmode, hflag, hresponse]
  case level => rw [quantize_level, quantize_level, hbit, hmode, hlevel, hresponse]

/-- Settles O11: the two directions, and the range that a sample keeps. -/
theorem levelMovesTowardTarget : Obligations.LevelMovesTowardTarget := by
  intro x s hresp
  have hrange : s.w.InRange s.mode := (s.w.inRange_iff s.mode).2 hresp
  refine ⟨_, exec_sample x s, ?up, ?down, ?range⟩ <;> rw [afterSample_w]
  case up => exact quantize_level_up hrange
  case down => exact quantize_level_down hrange
  case range => exact ((quantize s.mode s.w x).inRange_iff s.mode).1 (quantize_inRange hrange x)

/-- Settles O12, from the bounds of the factors. -/
theorem intermediatesStayInWidth : Obligations.IntermediatesStayInWidth := by
  intro bit same level response h1 h2 hr
  refine ⟨levelTarget_sub_bounds bit h1 h2, levelSum_bounds _ bit h1 h2 hr, fun hr' => ?legacy⟩
  case legacy =>
    obtain ⟨hlo, hhi⟩ := levelSum_bounds (modeConstants .legacy) bit h1 h2 hr hr'
    refine ⟨hlo, hhi, ?_⟩
    rw [respSum_legacy]
    cases same <;> simp only [if_true, Bool.false_eq_true, if_false] <;> omega

/-- Settles O13: a session's first sample clamps the fresh response, and the table is the exact new level. -/
theorem currentModeClosedForm : Obligations.CurrentModeClosedForm := by
  refine ⟨fun s xs hxs => ?response, fun x s hm hr => ⟨_, exec_sample x s, ?level⟩⟩
  case response =>
    obtain ⟨y, ys, rfl⟩ := List.exists_cons_of_ne_nil hxs
    refine ⟨_, (runCommands_cons _ _ s).trans (runCommands_map_sample (y :: ys) _), ?_⟩
    rw [(afterSamples_mode_w _ _).2, ← freshCodec_response_toNat]
    exact codecFold_current_response y ys _
  case level =>
    obtain ⟨h1, h2⟩ := level_toInt_range s.w.level
    have hrange : s.w.InRange s.mode := (s.w.inRange_iff s.mode).2 (by simp [hm])
    have hresponse : (s.w.response.toNat : Int) = 8 := by rw [hr]; rfl
    rw [afterSample_w, quantize_level_toInt hrange, hm, hresponse, nextLevel_current_eight _ h1 h2,
      quantize_lastBit]

/-- Settles O15: constant extreme samples always decide the same way, so the gap closes. -/
theorem constantExtremeConverges : Obligations.ConstantExtremeConverges := by
  intro n s hresp hn
  have hrange : s.w.InRange s.mode := (s.w.inRange_iff s.mode).2 hresp
  exact ⟨runCommands_replicate_converges decideBit_max hn hrange,
    runCommands_replicate_converges decideBit_min hn hrange⟩

end Sys2Proof.Machine
end

section
/-! Single commands (spec/10_state.md section 2, spec/20_memory.md section 4, spec/40_quantizer.md R53) and
the counting of samples (spec/41_bit_packer.md section 3). -/

namespace Sys2Proof.Machine

/-! ### The frame of `SAMPLE` -/

/-- A `SAMPLE` that does not complete a byte leaves the checkpoint and the output alone. -/
theorem afterSample_frame_inside {s : State} (h : s.cnt ≠ 7) (x : SampleBits) :
    (afterSample x s).k = s.k ∧ (afterSample x s).output = s.output ∧
      (afterSample x s).emitted = s.emitted := by
  rw [afterSample_inside h]
  exact ⟨rfl, rfl, rfl⟩

/-- A `SAMPLE` appends the byte it emits, or nothing (20_memory.md R28). -/
theorem afterSample_output_cases (x : SampleBits) (s : State) :
    (afterSample x s).output = s.output ∨
      ∃ b, (afterSample x s).output = s.output ++ [b] ∧ (afterSample x s).emitted = some b := by
  obtain ⟨hkept, -⟩ | ⟨_, -, -, houtput, hemitted⟩ := afterInstr_output (.sample x) s
  · exact .inl hkept
  · exact .inr ⟨_, houtput, hemitted⟩

/-! ### Counting -/

/-- A `SAMPLE` counts one, and the eighth of a group is a byte. -/
theorem afterSample_counts (x : SampleBits) (s : State) :
    8 * (afterSample x s).output.length + (afterSample x s).cnt.toNat =
      8 * s.output.length + s.cnt.toNat + 1 := by
  by_cases h7 : s.cnt = 7
  · rw [afterSample_last h7, h7, List.length_append, List.length_singleton]
    simp only [BitVec.ofNat_eq_ofNat, BitVec.toNat_ofNat]
    omega
  · obtain ⟨-, houtput, -⟩ := afterSample_frame_inside h7 x
    rw [houtput, afterSample_cnt, cnt_add_one_toNat h7, Nat.add_assoc]

/-- Among `SAMPLE` and `NOP` commands only the samples count, from any `cnt` (41_bit_packer.md section 3). -/
theorem runCommands_counts {is : List Instr} (his : ∀ i ∈ is, i = .nop ∨ ∃ x, i = .sample x) (s : State) :
    ∃ t, runCommands is s = .next t ∧
      8 * t.output.length + t.cnt.toNat = 8 * s.output.length + s.cnt.toNat + is.countP (· ≠ .nop) := by
  induction is generalizing s with
  | nil => exact ⟨s, rfl, rfl⟩
  | cons i is ih =>
    obtain ⟨hi, his⟩ := List.forall_mem_cons.1 his
    obtain ⟨t, hrun, hcount⟩ := ih his (afterInstr i s)
    refine ⟨t, (runCommands_cons i is s).trans hrun, ?_⟩
    obtain rfl | ⟨x, rfl⟩ := hi
    · rw [hcount, List.countP_cons_of_neg (by decide)]
      rfl
    · have hsample : 8 * (afterInstr (.sample x) s).output.length + (afterInstr (.sample x) s).cnt.toNat =
          8 * s.output.length + s.cnt.toNat + 1 := afterSample_counts x s
      rw [hcount, hsample, List.countP_cons_of_pos (by simp)]
      omega

/-! ### The statements -/

/-- Settles O6: `START` and `END` leave what a second one leaves, and `SAMPLE` moves the counter. -/
theorem allButSampleIdempotent : Obligations.AllButSampleIdempotent := by
  obtain ⟨-, -, -, -, -, hend⟩ := endSettlesRemainder
  refine ⟨fun i s hi => ?idempotent, fun x s h => ?sample⟩
  case idempotent =>
    cases i with
    | nop => rfl
    | start m => rfl
    | sample x => exact absurd rfl (hi x)
    | endBuffer => exact hend s
  case sample =>
    have hstates : afterSample x (afterSample x s) = afterSample x s := Host.Outcome.next.inj h
    have hcnt := congrArg State.cnt hstates
    rw [afterSample_cnt] at hcnt
    exact absurd (add_eq_left.1 hcnt) (by decide)

/-- Settles O16, command by command. -/
theorem lastBitWrites : Obligations.LastBitWrites := by
  intro i s
  refine ⟨_, exec_eq_next i s, ?_⟩
  cases i with
  | nop => rfl
  | start m => rfl
  | sample x => exact congrArg CodecState.lastBit (afterSample_w x s)
  | endBuffer => exact (congrArg CodecState.lastBit (settleRemainder_w s)).trans (apply_ite _ _ _ _)

/-- Settles O18, field by field. -/
theorem sampleFrame : Obligations.SampleFrame := fun x s =>
  ⟨_, exec_sample x s, afterSample_mode x s, afterSample_config x s, afterSample_input x s,
    afterSample_draws x s, fun h => afterSample_frame_inside h x, afterSample_output_cases x s⟩

/-- Settles O21: eight times the bytes, and the counter, together count the samples. -/
theorem samplesCountModuloEight : Obligations.SamplesCountModuloEight := by
  intro s is his
  obtain ⟨t, hrun, hcount⟩ := runCommands_counts his s
  have := t.cnt.isLt
  exact ⟨t, hrun, by omega, by omega⟩

end Sys2Proof.Machine
end

section
/-! Steps and runs (spec/20_memory.md sections 1 and 8, spec/70_reset_and_hazards.md): what a step emits and
writes, how far a run goes, and what it does not depend on. -/

namespace Sys2Proof.Machine

/-! ### One step -/

/-- What the pins show of a command performed in a step: the byte of an eighth sample, or nothing. -/
theorem afterInstr_beginStep_output (i : Instr) (s : State) :
    (afterInstr i s.beginStep).output = s.output ++ (afterInstr i s.beginStep).emitted.toList ∧
      ((afterInstr i s.beginStep).outValid = true ↔ (∃ x, i = .sample x) ∧ s.cnt.toNat = 7) := by
  rw [cnt_toNat_eq_seven, State.outValid]
  obtain ⟨houtput, hemitted⟩ | ⟨x, rfl, h7, houtput, hemitted⟩ := afterInstr_output i s.beginStep
  · refine ⟨by simp [houtput, hemitted], by simp [hemitted], ?_⟩
    rintro ⟨⟨x, rfl⟩, h7⟩
    rw [afterInstr, afterSample_last (by exact h7)]
    rfl
  · exact ⟨by simp [houtput, hemitted], fun _ => ⟨⟨x, rfl⟩, h7⟩, fun _ => by simp [hemitted]⟩

/-- When `out_valid` is 1, `out_byte` is the byte emitted (20_memory.md R39). -/
theorem emitted_of_outValid {t : State} (h : t.outValid = true) : t.emitted = some t.outByte := by
  obtain ⟨b, hb⟩ := Option.isSome_iff_exists.1 h
  rw [State.outByte, hb]

/-- With the invariants, `END` moves `W` only inside a group in the default configuration. -/
theorem State.Inv.of_settleRemainder_w_ne {s : State} (hs : s.Inv) (h : (settleRemainder s).w ≠ s.w) :
    s.cnt ≠ 0 ∧ s.config.remainderCommits = false := by
  refine ⟨fun hcnt => h ?_, ?_⟩
  · rw [settleRemainder_of_k_eq_w (hs.k_eq_w hcnt)]
  · rw [← Bool.not_eq_true]
    exact fun hc => h (by rw [settleRemainder_commits hc, takeCheckpoint_w])

/-! ### Runs -/

theorem Edge.allowed_iff (e : Edge) : e.allowed = true ↔ e.action ≠ .reserved := bne_iff_ne

/-- A run without reserved words goes on to its end (R117). -/
theorem runEdges_of_allowed {es : List Edge} (h : ∀ e ∈ es, e.allowed = true) (s : State) :
    ∃ t, runEdges es s = .next t ∧ t.input = [] := by
  induction es generalizing s with
  | nil => exact ⟨_, rfl, rfl⟩
  | cons e es ih =>
    obtain ⟨he, hes⟩ := List.forall_mem_cons.1 h
    rw [runEdges_cons_action]
    cases ha : e.action with
    | reset => exact ih hes _
    | perform i => exact ih hes _
    | reserved => exact absurd ha ((Edge.allowed_iff e).1 he)

/-- A command only appends to the output stream. -/
theorem output_grows_afterInstr (i : Instr) (s : State) : s.output <+: (afterInstr i s).output := by
  obtain ⟨h, -⟩ | ⟨x, -, -, h, -⟩ := afterInstr_output i s
  · exact ⟨[], by rw [h, List.append_nil]⟩
  · exact ⟨_, h.symm⟩

/-- Emitted bytes stay emitted (70_reset_and_hazards.md R105). -/
theorem output_grows_runEdges {es : List Edge} {s t : State} (h : runEdges es s = .next t) :
    s.output <+: t.output :=
  runEdges_keeps (P := fun u => s.output <+: u.output) (fun _ _ => id) (fun _ _ => id) (fun _ => id)
    (fun i u hu => hu.trans (output_grows_afterInstr i u)) es s t ⟨[], List.append_nil _⟩ h

/-- The same edges take states that agree to states that agree. -/
theorem AgreeSince.runEdges {o p : List Byte} {s u : State} (h : AgreeSince o p s u) (es : List Edge) :
    (∃ t v, runEdges es s = .next t ∧ runEdges es u = .next v ∧ AgreeSince o p t v) ∨
      (runEdges es s = .refused .reservedEncoding ∧ runEdges es u = .refused .reservedEncoding) :=
  runEdges_related (R := AgreeSince o p) (fun _ _ es h => h.begun_both es es)
    (fun _ _ _ h => ⟨h.config, h.registers, h.output⟩) (fun _ _ h => h.hardwareReset)
    (fun i _ _ h => h.afterInstr i) es s u h

theorem agreeSince_self (s : State) : AgreeSince s.output s.output s s :=
  ⟨rfl, rfl, [], by simp, by simp⟩

/-- The same history before, and agreement since, are the same result (R116). -/
theorem AgreeSince.result_eq {o : List Byte} {s u : State} (h : AgreeSince o o s u) :
    s.result = u.result := by
  obtain ⟨out, hs, hu⟩ := h.output
  rw [State.result, State.result, hs, hu, h.registers]

/-! ### Copies -/

/-- A joint step that goes on is one copy's own step (60_exceptions.md R101). -/
theorem stepCopy_eq_next_iff (n : Nat) (bs bs' : List State) :
    stepCopy n bs = some (.next bs') ↔ ∃ s t, bs[n]? = some s ∧ step s = .next t ∧ bs' = bs.set n t := by
  unfold stepCopy
  cases hn : bs[n]? with
  | none => simp
  | some s => cases hs : step s <;> simp [hs, eq_comm]

/-! ### The statements -/

/-- Settles O33: reset emits nothing, and a command what its `SAMPLE` at `cnt == 7` emits. -/
theorem onlyEighthSampleEmits : Obligations.OnlyEighthSampleEmits := by
  intro s t hstep
  have hout : t.output = s.output ++ t.emitted.toList ∧ (t.outValid = true ↔
      (∃ x, s.presentedEdge.action = .perform (.sample x)) ∧ s.cnt.toNat = 7) := by
    obtain ⟨ha, rfl⟩ | ⟨i, ha, rfl⟩ := step_next hstep
    · simp [ha, State.outValid]
    · simpa only [ha, Action.perform.injEq] using afterInstr_beginStep_output i s
  obtain ⟨houtput, hvalid⟩ := hout
  refine ⟨houtput, hvalid, fun h => ?_⟩
  rw [houtput, emitted_of_outValid h, Option.toList_some]

/-- Settles O34: reset and the four commands in turn. -/
theorem onlyStartAndResetWriteMode : Obligations.OnlyStartAndResetWriteMode := by
  intro s t hstep
  obtain ⟨ha, rfl⟩ | ⟨i, ha, rfl⟩ := step_next hstep
  · exact ⟨rfl, fun _ => .inl ⟨ha, rfl⟩, fun _ _ => .inl ha⟩
  · refine ⟨afterInstr_config i _, fun hmode => .inr ?mode, fun hs hw => .inr ?codec⟩
    case mode =>
      by_contra hno
      exact hmode (afterInstr_mode (fun m hm => hno ⟨m, hm ▸ ha, hm ▸ rfl⟩) s.beginStep)
    case codec =>
      cases i with
      | nop => exact absurd rfl hw
      | start m => exact .inl ⟨m, ha⟩
      | sample x => exact .inr (.inl ⟨x, ha⟩)
      | endBuffer =>
        have hbegun : s.beginStep.Inv := hs
        exact .inr (.inr ⟨ha, hbegun.of_settleRemainder_w_ne hw⟩)

/-- Settles O32. -/
theorem allowedRunsReachTheirEnd : Obligations.AllowedRunsReachTheirEnd :=
  fun _ s h => runEdges_of_allowed h s

/-- Settles O35: the longer run goes on from the end of the shorter. -/
theorem emittedBytesStayEmitted : Obligations.EmittedBytesStayEmitted := by
  intro es fs s t h
  rw [runEdges_append] at h
  cases hes : runEdges es s with
  | next u =>
    rw [hes] at h
    obtain ⟨out, hout⟩ := output_grows_runEdges hes
    obtain ⟨more, hmore⟩ := output_grows_runEdges h
    exact ⟨u, rfl, ⟨out, hout.symm⟩, more, hmore.symm⟩
  | fault r => rw [hes] at h; cases h
  | refused r => rw [hes] at h; cases h

/-- Settles O44: a run and the run without its idle edges agree from the state they share. -/
theorem idleStepsAreInvisible : Obligations.IdleStepsAreInvisible := by
  intro es s
  obtain ⟨t, v, ht, hv, hagree⟩ | ⟨hs, hu⟩ := runEdges_filter_idle es (agreeSince_self s)
  · rw [ht, hv, outcomeResult, outcomeResult, hagree.result_eq]
  · rw [hs, hu]

/-- Settles O49: states that differ in the output, the pins and the counter agree since. -/
theorem outputHistoryIsNeverRead : Obligations.OutputHistoryIsNeverRead := by
  intro es s t o e d hrun
  have hstart : AgreeSince s.output o s { s with output := o, emitted := e, draws := d } :=
    ⟨rfl, rfl, [], (List.append_nil _).symm, (List.append_nil _).symm⟩
  obtain ⟨t', v, ht, hv, hagree⟩ | ⟨hrefused, -⟩ := hstart.runEdges es
  · rw [hrun] at ht
    cases ht
    obtain ⟨out, hout, hvout⟩ := hagree.output
    exact ⟨v, out, hv, hout, hvout, hagree.registers.symm⟩
  · rw [hrun] at hrefused
    cases hrefused

/-- Settles O50: the joint step looks at copy `n` alone and sets copy `n` alone. -/
theorem copiesShareNothing : Obligations.CopiesShareNothing := by
  intro n bs bs' h
  obtain ⟨s, t, hn, hstep, rfl⟩ := (stepCopy_eq_next_iff n bs bs').1 h
  have hset : ∀ cs : List State, cs[n]? = some s → (cs.set n t)[n]? = some t := fun cs hcs =>
    List.getElem?_set_self (List.getElem?_eq_some_iff.1 hcs).1
  refine ⟨⟨s, t, hn, hstep, hset bs hn⟩, fun j hj => List.getElem?_set_ne hj.symm, fun cs hcs => ?_⟩
  have hcsn : cs[n]? = some s := hcs.trans hn
  exact ⟨cs.set n t, (stepCopy_eq_next_iff n cs _).2 ⟨s, t, hcsn, hstep, rfl⟩,
    (hset cs hcsn).trans (hset bs hn).symm⟩

end Sys2Proof.Machine
end
